-- ==== Sys2Proof/Word.lean ====
section
/-! DEFINITION. Words, byte strings and digit strings: the plain types every other file is written over (00_scope.md R12). -/

namespace Sys2Proof

/-- A byte, an integer 0..255 with bit 7 its most significant bit (R12). -/
abbrev Byte := BitVec 8

/-- A byte string; index 0 is its first byte (R12). -/
abbrev Bytes := List Byte

/-- A digit string: each digit "an integer `0 <= X[j] < r`", index 0 the first (leftmost) symbol (R12). The bound is
part of the invariant `Machine.State.Inv` of the half registers, and of what `Machine.checkDigits` returns
(DESIGN CHOICE, log entry 18). -/
abbrev Digits := List Nat

/-- The canonical tweak, eight bytes (R24, R78). -/
abbrev Tweak := Vector Byte 8

/-- One half of a tweak, four bytes (R121). -/
abbrev TweakHalf := Vector Byte 4

/-- A 16-byte block as it goes to the oracle and comes back (R9, R80, R81). -/
abbrev Block := Vector Byte 16

/-- A block-permutation oracle: (key bytes, 16-byte block) to a 16-byte block, a total function of its two
operands of which nothing else is assumed (R9). -/
abbrev Oracle := Bytes → Block → Block

end Sys2Proof
end

