-- ==== Sys2Proof/Syntax.lean ====
section
/-! DEFINITION. The instructions: the five host commands (45_host_commands.md) and the scheduler's two
micro-operations (44_feistel_engine.md), one constructor per row of opcode_table.json. -/

namespace Sys2Proof

inductive Instr where
  /-- INIT (R71, R190): RADIX, KEY, TWEAK -/
  | init (radix : Byte) (key tweak : Bytes)
  /-- ENC (R73, R191): SYM -/
  | enc (sym : Bytes)
  /-- DEC (R73, R192): SYM -/
  | dec (sym : Bytes)
  /-- ENCT (R74, R193): SYM, TWEAK -/
  | enct (sym tweak : Bytes)
  /-- DECT (R74, R194): SYM, TWEAK -/
  | dect (sym tweak : Bytes)
  /-- RNDE i (R83, R172) -/
  | rnde (i : BitVec 3)
  /-- RNDD i (R83, R173) -/
  | rndd (i : BitVec 3)
deriving DecidableEq, Repr

/-- An instruction as it is encoded: a command frame (R70), or the scheduler's 4-bit control word (R83). -/
inductive Code where
  | frame (bytes : Bytes)
  | control (cw : BitVec 4)
deriving DecidableEq, Repr

end Sys2Proof
end

