-- ==== Sys2Proof/WellFormed.lean ====
section
/-! DEFINITION. Which instructions have an encoding: every operand that a count byte counts has at most 255
elements (R71, R73, R74). Everything else about an operand is checked when the command runs (R224). -/

namespace Sys2Proof

/-- A byte string whose length fits its one-byte count field. -/
abbrev Countable (s : Bytes) : Prop := s.length < 256

abbrev WellFormed : Instr → Prop
  | .init _ key tweak => Countable key ∧ Countable tweak
  | .enc sym => Countable sym
  | .dec sym => Countable sym
  | .enct sym tweak => Countable sym ∧ Countable tweak
  | .dect sym tweak => Countable sym ∧ Countable tweak
  | .rnde _ => True
  | .rndd _ => True

end Sys2Proof
end

