-- ==== Sys2Proof/Decode.lean ====
section
/-! DEFINITION. Decoding command frames and control words, total on any bytes and rejecting by name, and the
encoder of well-formed instructions (30_encoding.md R70 to R74, R83, R90, R91). -/

namespace Sys2Proof

/-- Why a byte string is no legal frame (R90). The engine answers each of them IllegalCommand. -/
inductive DecodeError where
  /-- the empty string -/
  | emptyFrame
  /-- byte 0 is none of the five opcodes of R72 -/
  | reservedOpcode (opc : Byte)
  /-- too short to hold its own length bytes -/
  | noLengthBytes
  /-- shorter or longer than its length bytes say -/
  | wrongLength
deriving DecidableEq, Repr

/-- What follows the opcode of a format `I` frame: RADIX, KLEN, TLEN, KEY, TWEAK (R71). -/
def decodeI : Bytes → Except DecodeError Instr
  | radix :: klen :: tlen :: rest =>
    if rest.length = klen.toNat + tlen.toNat then
      .ok (.init radix (rest.take klen.toNat) (rest.drop klen.toNat))
    else .error .wrongLength
  | _ => .error .noLengthBytes

/-- What follows the opcode of a format `M` frame: N, SYM (R73). -/
def decodeM (make : Bytes → Instr) : Bytes → Except DecodeError Instr
  | n :: sym => if sym.length = n.toNat then .ok (make sym) else .error .wrongLength
  | _ => .error .noLengthBytes

/-- What follows the opcode of a format `MT` frame: N, TLEN, SYM, TWEAK (R74). -/
def decodeMT (make : Bytes → Bytes → Instr) : Bytes → Except DecodeError Instr
  | n :: tlen :: rest =>
    if rest.length = n.toNat + tlen.toNat then
      .ok (make (rest.take n.toNat) (rest.drop n.toNat))
    else .error .wrongLength
  | _ => .error .noLengthBytes

/-- A command frame, by its whole byte 0 (R72, R90, R91). -/
def decodeFrame : Bytes → Except DecodeError Instr
  | [] => .error .emptyFrame
  | opc :: body =>
    if opc = 0x01#8 then decodeI body
    else if opc = 0x02#8 then decodeM .enc body
    else if opc = 0x03#8 then decodeM .dec body
    else if opc = 0x06#8 then decodeMT .enct body
    else if opc = 0x07#8 then decodeMT .dect body
    else .error (.reservedOpcode opc)

/-- A control word `d i2 i1 i0`: all 16 values are legal (R83). -/
def decodeControl (cw : BitVec 4) : Instr :=
  if cw.getLsbD 3 then .rndd (cw.setWidth 3) else .rnde (cw.setWidth 3)

/-- The instruction a code stands for. -/
def decode : Code → Except DecodeError Instr
  | .frame bytes => decodeFrame bytes
  | .control cw => .ok (decodeControl cw)

/-- The count byte of a byte string of at most 255 bytes. -/
def countByte (s : Bytes) : Byte := BitVec.ofNat 8 s.length

/-- The code of an instruction (R71, R73, R74, R83); it is that instruction's encoding when it is well-formed. -/
def encode : Instr → Code
  | .init radix key tweak => .frame (0x01#8 :: radix :: countByte key :: countByte tweak :: (key ++ tweak))
  | .enc sym => .frame (0x02#8 :: countByte sym :: sym)
  | .dec sym => .frame (0x03#8 :: countByte sym :: sym)
  | .enct sym tweak => .frame (0x06#8 :: countByte sym :: countByte tweak :: (sym ++ tweak))
  | .dect sym tweak => .frame (0x07#8 :: countByte sym :: countByte tweak :: (sym ++ tweak))
  | .rnde i => .control (0#1 ++ i)
  | .rndd i => .control (1#1 ++ i)

/-! ### The words of opcode_table.json

The table numbers a frame's bits from bit 0 of byte 0 on, and the control word's bits from `i0` on. It gives the
five commands 8 bits (byte 0) and the two micro-operations 4. -/

/-- Byte `k` of the number `w`, the least significant byte first. -/
def wordByte (w k : Nat) : Byte := BitVec.ofNat 8 (w / 256 ^ k)

/-- The length a frame of that many known bytes has by its own opcode and length bytes (R91). -/
def wordFrameLength (nbits w : Nat) : Nat :=
  let b := fun k => (wordByte w k).toNat
  if b 0 = 0x01 then 4 + b 2 + b 3
  else if b 0 = 0x02 ∨ b 0 = 0x03 then 2 + b 1
  else if b 0 = 0x06 ∨ b 0 = 0x07 then 3 + b 1 + b 2
  else (nbits + 7) / 8

/-- The bytes of the frame whose bits are `w` (bits from `nbits` on are 0), as long as it says it is. -/
def wordFrame (nbits w : Nat) : Bytes :=
  (List.range (wordFrameLength nbits (w % 2 ^ nbits))).map (wordByte (w % 2 ^ nbits))

/-- The code that the table's bits stand for: 4 bits (or fewer) are a control word; more are a frame, but for an
8-bit word below 16 whose byte is no opcode, which can only be a control word padded to a byte (log entry 11). -/
def tableCode (nbits w : Nat) : Code :=
  if nbits ≤ 4 then .control (BitVec.ofNat 4 (w % 2 ^ nbits))
  else if nbits ≤ 8 ∧ w % 2 ^ nbits < 16 ∧ w % 2 ^ nbits ∉ [1, 2, 3, 6, 7] then
    .control (BitVec.ofNat 4 (w % 2 ^ nbits))
  else .frame (wordFrame nbits w)

/-- The instruction the decoder reads from an instruction whose bits are `w`. -/
def decodeTableWord (nbits w : Nat) : Option Instr :=
  match decode (tableCode nbits w) with
  | .ok i => some i
  | .error _ => none

end Sys2Proof
end

