-- ==== Sys2Proof/Machine/Registers.lean ====
section
/-! DEFINITION. The registers of one engine in their two groups, the context CTX and the call registers
(10_state.md R20 to R29, R35). The number in brackets is R35's register number. -/

namespace Sys2Proof.Machine

/-- DIR [8]: the direction of a transform (R27). -/
inductive Dir where
  /-- DIR = 0 -/
  | encrypt
  /-- DIR = 1 -/
  | decrypt
deriving DecidableEq, Repr, Inhabited

/-- The bit that DIR holds, which is also bit `d` of the control word (R27, R83). -/
def Dir.bit : Dir → BitVec 1
  | .encrypt => 0#1
  | .decrypt => 1#1

/-- CTX.KLEN [5]: the number of key bytes, which is also the `cipherStrength` variant (R25, R104). -/
inductive KeyVariant where
  /-- a 16-byte key -/
  | bits128
  /-- a 24-byte key -/
  | bits192
  /-- a 32-byte key -/
  | bits256
deriving DecidableEq, Repr, Inhabited

/-- The number of key bytes of a variant: the value R35 gives CTX.KLEN. -/
def KeyVariant.bytes : KeyVariant → Nat
  | .bits128 => 16
  | .bits192 => 24
  | .bits256 => 32

/-- The number `keyVariant` returns (R104). -/
def KeyVariant.strength : KeyVariant → Nat
  | .bits128 => 128
  | .bits192 => 192
  | .bits256 => 256

/-- The context CTX but for CTX.VALID (R22 to R25), written by INIT and by reset only (R26). -/
structure Context where
  /-- CTX.RADIX [1] -/
  radix : BitVec 6
  /-- CTX.MINLEN [2] -/
  minLen : BitVec 8
  /-- CTX.MAXLEN [3] -/
  maxLen : BitVec 8
  /-- CTX.T [4] -/
  t : Tweak
  /-- CTX.KLEN [5] -/
  klen : KeyVariant
  /-- CTX.KO [6]: the key as the engine presents it to the oracle, byte-reversed -/
  ko : Bytes
deriving DecidableEq, Repr, Inhabited

/-- The call registers, which hold a value of the spec's only while a transform executes (R27 to R29). -/
structure CallRegs where
  /-- DIR [8] -/
  dir : Dir
  /-- N [9], the message length -/
  n : BitVec 8
  /-- U [9], the length of the first half -/
  u : BitVec 8
  /-- V [9], the length of the second half -/
  v : BitVec 8
  /-- TW [10], the tweak in force for this call -/
  tw : Tweak
  /-- A [11], a half register -/
  a : Digits
  /-- B [12], a half register -/
  b : Digits
  /-- RI [13], the round index, the block's program counter -/
  ri : BitVec 3
  /-- RC [14], the round count -/
  rc : BitVec 4
deriving DecidableEq, Repr, Inhabited

/-- The key bytes a query presents: "32 bytes, first KLEN used" (R35). DEDUCED (log entry 19). -/
def Context.key (c : Context) : Bytes := c.ko.take c.klen.bytes

end Sys2Proof.Machine
end

