-- ==== Sys2Proof/Config.lean ====
section
/-! DEFINITION. What is fixed for the machine: the constants of 00_scope.md R8, the oracle, and the values the
spec leaves without one (opaque, so that a claim about them holds whatever they are). -/

namespace Sys2Proof.Config

/-- ROUNDS (R8). -/
def rounds : Nat := 8
/-- BLOCK_BYTES (R8). -/
def blockBytes : Nat := 16
/-- NUM_BYTES (R8). -/
def numBytes : Nat := 12
/-- HALF_TWEAK_BYTES (R8). -/
def halfTweakBytes : Nat := 4
/-- TWEAK_BYTES (R8). -/
def tweakBytes : Nat := 8
/-- RADIX_MIN (R8). -/
def radixMin : Nat := 2
/-- RADIX_MAX (R8). -/
def radixMax : Nat := 36
/-- DOMAIN_MIN (R8). -/
def domainMin : Nat := 1000000
/-- HALF_CAP (R8). -/
def halfCap : Nat := 2 ^ 96
/-- RADIX_DEFAULT (R8), used by the assembler only (R93). -/
def radixDefault : Nat := 10

/-- CIPH, the one open parameter (R9, R32): some total function of (key bytes, block) and of nothing else.
No body: nothing can be proved of its values. Log entry 6. -/
opaque ciph : Oracle

/-- The free contents of CTX after a failed INIT ("hold no value", R225), one for each draw. No body. Log entry 3. -/
opaque freeContext : Nat → Machine.Context

/-- The free contents of the call registers after a transform has ended (R195, R225), one for each draw.
No body. Log entry 4. -/
opaque freeCall : Nat → Machine.CallRegs

end Sys2Proof.Config
end

