-- ==== Sys2Proof/Machine/State.lean ====
section
/-! DEFINITION. The whole state of one engine and of its two ports, the reasons a step can stop, and the state
after reset (10_state.md, 70_reset_and_hazards.md R250). -/

namespace Sys2Proof.Machine

/-- One thing the host does during one step (45_host_commands.md R200). Reading a response needs no entry: the
responses stand in `State.sent`. -/
inductive HostAction where
  /-- the host does nothing -/
  | quiet
  /-- the host offers a byte string as a command frame (R200 (a)) -/
  | offer (frame : Bytes)
  /-- the host asserts reset (R200 (c), R251) -/
  | reset
deriving DecidableEq, Repr

/-- An action of the engine that the outside sees (20_memory.md R60). -/
inductive Event where
  /-- one oracle query, the record `(k, Q)` of R82 -/
  | query (k : Bytes) (q : Block)
  /-- one response frame (R75) -/
  | response (frame : Bytes)
deriving DecidableEq, Repr

structure State where
  /-- CTX.VALID [0] (R21) -/
  valid : Bool
  /-- the other registers of CTX (R22 to R25) -/
  ctx : Context
  /-- BUSY [7] (R30) -/
  busy : Bool
  /-- the call registers (R27 to R29) -/
  call : CallRegs
  /-- frames offered and not yet accepted, oldest first (R50, R196) -/
  waiting : List Bytes
  /-- the engine's outward actions so far, oldest first (R60, R201); the model's own log (log entry 16) -/
  sent : List Event
  /-- what the host will do, one action per step (R200); the model's own input (log entry 7) -/
  host : List HostAction
  /-- how many free values have been drawn; the model's own counter (log entry 5) -/
  drawn : Nat
deriving DecidableEq, Repr

/-- Why the machine stops with a fault. -/
inductive Fault where
  /-- Raised by RNDE and RNDD where `STR_r^m(c)` would raise ValueTooLarge (R131), that is where `c >= r**m`, which
  after the fold happens only when `r**m = 0`. Unreachable by R235 and U4 (a defect of the implementation); no
  state that keeps `State.Inv` raises it. Safe. -/
  | valueTooLarge
deriving DecidableEq, Repr

/-- Why an instruction is refused. No meaning refuses: every byte string has a defined response (R265). -/
inductive Refusal where
  /-- Raised by an arm of `exec` whose instruction has no meaning yet; no arm is such. Safe. -/
  | notModelled (mnemonic : String)
deriving DecidableEq, Repr

/-- CTX's registers other than VALID after reset. R250: "unspecified; not readable while VALID = 0".
DESIGN CHOICE (log entry 1), unsafe: every register zero. -/
def Context.reset : Context :=
  { radix := 0#6, minLen := 0#8, maxLen := 0#8, t := Vector.replicate 8 0#8, klen := .bits128, ko := [] }

/-- The call registers after reset. R250: "none (no value outside a call)".
DESIGN CHOICE (log entry 2), unsafe: every register zero. -/
def CallRegs.reset : CallRegs :=
  { dir := .encrypt, n := 0#8, u := 0#8, v := 0#8, tw := Vector.replicate 8 0#8, a := [], b := [], ri := 0#3, rc := 0#4 }

/-- The machine right after reset (R250), with nothing offered, nothing sent and no action of the host to come. -/
def State.reset : State :=
  { valid := false, ctx := Context.reset, busy := false, call := CallRegs.reset,
    waiting := [], sent := [], host := [], drawn := 0 }

end Sys2Proof.Machine
end

