-- ==== Sys2Proof/Machine/Flags.lean ====
section
/-! DEFINITION. The two flags, CTX.VALID and BUSY (10_state.md R21, R30). There is no condition code and no flag
that an operation leaves as a side effect (R30). -/

namespace Sys2Proof.Machine

/-- A command is accepted: it leaves the waiting frames and BUSY becomes 1 (R30, R196). -/
def State.accept (rest : List Bytes) (s : State) : State := { s with waiting := rest, busy := true }

/-- The response of a command is sent and BUSY becomes 0 (R30, R196, R198). -/
def State.answer (frame : Bytes) (s : State) : State :=
  { s with sent := s.sent ++ [.response frame], busy := false }

/-- CTX.VALID <- 0; the other fields of CTX hold no value: a free one (R190, R225; log entry 3). -/
def State.invalidate (s : State) : State :=
  { s with valid := false, ctx := Config.freeContext s.drawn, drawn := s.drawn + 1 }

/-- The call registers hold no value: a free one (R195, R225; log entry 4). -/
def State.discardCall (s : State) : State :=
  { s with call := Config.freeCall s.drawn, drawn := s.drawn + 1 }

end Sys2Proof.Machine
end

