-- ==== Sys2Proof/Machine/Status.lean ====
section
/-! DEFINITION. Error kinds, status codes and the three response formats (30_encoding.md R75, R84). -/

namespace Sys2Proof.Machine

/-- The error kinds of 60_exceptions.md R221. -/
inductive ErrorKind where
  | invalidKeyLength
  | invalidRadix
  | invalidDomainBounds
  | invalidTweakLength
  | invalidMessageLength
  | invalidDigitForRadix
  | valueTooLarge
  | notConfigured
  | illegalCommand
deriving DecidableEq, Repr

/-- The STATUS byte of an error kind (R84). -/
def ErrorKind.code : ErrorKind → Byte
  | .invalidKeyLength => 0x01#8
  | .invalidRadix => 0x02#8
  | .invalidDomainBounds => 0x03#8
  | .invalidTweakLength => 0x04#8
  | .invalidMessageLength => 0x05#8
  | .invalidDigitForRadix => 0x06#8
  | .valueTooLarge => 0x07#8
  | .notConfigured => 0x08#8
  | .illegalCommand => 0x09#8

/-- The status OK (R84). -/
def statusOk : Byte := 0x00#8

/-- Response format `RS`: the status alone (R75). -/
def responseRS (e : ErrorKind) : Bytes := [e.code]

/-- Response format `RI`: INIT succeeded (R75). -/
def responseRI (minLen maxLen : BitVec 8) : Bytes := [statusOk, minLen, maxLen]

/-- Response format `RM`: a transform succeeded (R75). -/
def responseRM (n : BitVec 8) (sym : Bytes) : Bytes := statusOk :: n :: sym

end Sys2Proof.Machine
end

