-- ==== Sys2Proof/Machine/Codec.lean ====
section
/-! DEFINITION. RadixCodec and the integer helpers (42_radix_codec.md). Every integer is exact (R137, R138). -/

namespace Sys2Proof.Machine

/-- `NUM_r(X)`, most significant digit first (R130). -/
def num (r : Nat) (x : Digits) : Nat := x.foldl (fun acc d => acc * r + d) 0

/-- The natural representation of `x` to the base `r >= 2`, most significant digit first, none for 0: the loop of
R131 and R132. `fuel` bounds the loop; `x` turns are enough. -/
def naturalDigits (r : Nat) : (fuel : Nat) → Nat → Digits
  | 0, _ => []
  | fuel + 1, x => if x = 0 then [] else naturalDigits r fuel (x / r) ++ [x % r]

/-- The `m` digits of `x` to the base `r`, left-padded with zero digits; what `STR_r^m(x)` is when it does not raise. -/
def fixedDigits (r : Nat) : (m : Nat) → Nat → Digits
  | 0, _ => []
  | m + 1, x => fixedDigits r m (x / r) ++ [x % r]

/-- `STR_r^m(x)` (R131): exactly `m` digits; ValueTooLarge "fires exactly when `x >= r**m`". That this is R131's loop
and padding is `Laws.toDigitString_loop`. -/
def toDigitString (r m x : Nat) : Except ErrorKind Digits :=
  if r ^ m ≤ x then .error .valueTooLarge else .ok (fixedDigits r m x)

/-- `BYTES(x)`: the minimal big-endian bytes of `x`, none for 0 (R132). -/
def toFixedBytes (x : Nat) : Bytes := (naturalDigits 256 x x).map (BitVec.ofNat 8)

/-- `REV(X)` (R133). -/
def rev (x : Digits) : Digits := x.reverse

/-- `REVB(Z)` of a byte string (R134). -/
def revBytes (z : Bytes) : Bytes := z.reverse

/-- `REVB(Z)` of a 16-byte block: `REVB(Z)[j] = Z[15-j]` (R134, R154, R155). -/
def revBlock (z : Block) : Block := Vector.ofFn fun j : Fin 16 => z[15 - j.val]

/-- `BE(Z)`, the big-endian integer value of a byte string (R135). -/
def bigEndian (z : Bytes) : Nat := z.foldl (fun acc b => acc * 256 + b.toNat) 0

/-- `emod(a, q)` for `q >= 1`: the `c` with `0 <= c < q` and `q` dividing `a - c` (R136). -/
def emod (a : Int) (q : Nat) : Nat := (a % (q : Int)).toNat

end Sys2Proof.Machine
end

