-- ==== Sys2Proof/Machine/Operands.lean ====
section
/-! DEFINITION. How operands are assembled: symbols and digits (30_encoding.md R76), the tweak codec
(41_tweak_codec.md R120, R121). -/

namespace Sys2Proof.Machine

/-- The digit a symbol byte stands for: `0`..`9` and `a`..`z`, lower case only (R76). -/
def symbolDigit (b : Byte) : Option Nat :=
  if 0x30 ≤ b.toNat ∧ b.toNat ≤ 0x39 then some (b.toNat - 0x30)
  else if 0x61 ≤ b.toNat ∧ b.toNat ≤ 0x7A then some (b.toNat - 0x61 + 10)
  else none

/-- The symbol byte of a digit below 36, "the lowercase digit alphabet" (R76). DESIGN CHOICE (log entry 21), safe: a
number from 36 on, which no half holds, goes on past `z`. -/
def digitSymbol (d : Nat) : Byte :=
  if d < 10 then BitVec.ofNat 8 (0x30 + d) else BitVec.ofNat 8 (0x61 + (d - 10))

/-- The symbols of a digit string (R76, R176). -/
def symbols (x : Digits) : Bytes := x.map digitSymbol

/-- `expand(t)` (R120): 8 bytes pass through, 7 bytes are spread over 8, any other length is refused. -/
def expand : Bytes → Except ErrorKind Tweak
  | [t0, t1, t2, t3, t4, t5, t6, t7] => .ok #v[t0, t1, t2, t3, t4, t5, t6, t7]
  | [t0, t1, t2, t3, t4, t5, t6] =>
    .ok #v[t0, t1, t2, t3 &&& 0xF0#8, t4, t5, t6, (t3 &&& 0x0F#8) <<< 4]
  | _ => .error .invalidTweakLength

/-- `Tl`, the first four bytes of a tweak (R121). -/
def tweakLeft (t : Tweak) : TweakHalf := #v[t[0], t[1], t[2], t[3]]

/-- `Tr`, the last four bytes of a tweak (R121). -/
def tweakRight (t : Tweak) : TweakHalf := #v[t[4], t[5], t[6], t[7]]

end Sys2Proof.Machine
end

