-- ==== Sys2Proof/Machine/Validator.lean ====
section
/-! DEFINITION. DomainValidator: the pure checks of 40_domain_validator.md. -/

namespace Sys2Proof.Machine

/-- The least `m` of `from, from + 1, ..., from + turns` with `r**m >= bound`, where there is one. -/
def leastPower (r bound : Nat) : (turns : Nat) → (start : Nat) → Nat
  | 0, start => start
  | turns + 1, start => if bound ≤ r ^ start then start else leastPower r bound turns (start + 1)

/-- The greatest `k` of `0, ..., top` with `r**k <= bound`, where there is one. -/
def greatestPower (r bound : Nat) : (top : Nat) → Nat
  | 0 => 0
  | top + 1 => if r ^ (top + 1) ≤ bound then top + 1 else greatestPower r bound top

/-- `minLen(r)` for `r >= 2`: the least `m` with `r**m >= DOMAIN_MIN`, which is at most 20 (R100). For a radix below 2
the spec has no value (R102) and no command asks for one; DESIGN CHOICE (log entry 14), safe: the search's end. -/
def minLength (r : Nat) : Nat := leastPower r Config.domainMin 20 0

/-- `maxLen(r)` for `r >= 2`: twice the greatest `k` with `r**k <= HALF_CAP`, which is at most 96 (R101). -/
def maxLength (r : Nat) : Nat := 2 * greatestPower r Config.halfCap 96

/-- `lengthBounds(r)` for `r >= 2` (R102). -/
def lengthBounds (r : Nat) : Except ErrorKind (Nat × Nat) :=
  if minLength r < 2 ∨ maxLength r < minLength r then .error .invalidDomainBounds else .ok (minLength r, maxLength r)

/-- `keyVariant(klen)` (R104). -/
def keyVariant (klen : Nat) : Except ErrorKind KeyVariant :=
  if klen = 16 then .ok .bits128
  else if klen = 24 then .ok .bits192
  else if klen = 32 then .ok .bits256
  else .error .invalidKeyLength

/-- `checkRadix(r)` (R105). -/
def checkRadix (r : Nat) : Except ErrorKind Unit :=
  if r < Config.radixMin ∨ Config.radixMax < r then .error .invalidRadix else .ok ()

/-- `checkMessageLength(n, minLen, maxLen)` (R106). -/
def checkMessageLength (n mn mx : Nat) : Except ErrorKind Unit :=
  if n < mn ∨ mx < n then .error .invalidMessageLength else .ok ()

/-- The digit of a symbol byte that is a symbol of radix `r` (R76). -/
def radixDigit (r : Nat) (b : Byte) : Option Nat := (symbolDigit b).filter (· < r)

/-- `checkDigits(SYM, r)` (R107). -/
def checkDigits (r : Nat) : Bytes → Except ErrorKind Digits
  | [] => .ok []
  | b :: sym =>
    match radixDigit r b, checkDigits r sym with
    | some d, .ok x => .ok (d :: x)
    | _, _ => .error .invalidDigitForRadix

/-- The checks of INIT in R110's order; the bytes of KEY and TWEAK themselves are never a cause of error (R222). -/
def initChecks (radix : Nat) (key tweak : Bytes) : Except ErrorKind (KeyVariant × (Nat × Nat) × Tweak) := do
  let klen ← keyVariant key.length
  checkRadix radix
  let bounds ← lengthBounds radix
  let t ← expand tweak
  return (klen, bounds, t)

/-- The tweak in force for a call: CTX.T, or the expanded override (R195). -/
def tweakInForce (ctx : Context) : Option Bytes → Except ErrorKind Tweak
  | none => .ok ctx.t
  | some tweak => expand tweak

/-- The checks of a transform in R110's order (R195, R223). -/
def transformChecks (valid : Bool) (ctx : Context) (sym : Bytes) (tweak : Option Bytes) :
    Except ErrorKind (Tweak × Digits) := do
  if valid = false then throw .notConfigured
  let tw ← tweakInForce ctx tweak
  checkMessageLength sym.length ctx.minLen.toNat ctx.maxLen.toNat
  let x ← checkDigits ctx.radix.toNat sym
  return (tw, x)

end Sys2Proof.Machine
end

