-- ==== Sys2Proof/Machine/Round.lean ====
section
/-! DEFINITION. RoundFunction (43_round_function.md), one definition per step of R151 to R158, over any oracle. -/

namespace Sys2Proof.Machine

/-- "even i" (R151): bit `i0` of the round index selects the tweak half and the length (R83, R171). -/
def evenRound (i : BitVec 3) : Bool := !i.getLsbD 0

/-- The tweak half `W`: "Tr on even i, Tl on odd i" (R151). -/
def tweakHalf (i : BitVec 3) (tw : Tweak) : TweakHalf :=
  if evenRound i then tweakRight tw else tweakLeft tw

/-- The length `m` of the half produced: "u on even rounds, v on odd rounds" (R151). -/
def halfLength (i : BitVec 3) (u v : Nat) : Nat := if evenRound i then u else v

/-- Byte `j` of the block after steps 1 and 2: `W[0..2]`, then `W[3] ^ i`, then zeros (R152). -/
def headByte (w : TweakHalf) (i : BitVec 3) (j : Nat) : Byte :=
  if j = 0 then w[0] else if j = 1 then w[1] else if j = 2 then w[2]
  else if j = 3 then w[3] ^^^ i.setWidth 8 else 0#8

/-- The block `P` (R152, R153): the head, overwritten from `P[16 - len(nb)]` on by `nb = BYTES(NUM_r(REV(src)))`.
DESIGN CHOICE (log entry 15), safe: with `len(nb) > 12`, which no half in range has, the head is overwritten too. -/
def roundBlock (i : BitVec 3) (w : TweakHalf) (r : Nat) (src : Digits) : Block :=
  let nb := toFixedBytes (num r (rev src))
  Vector.ofFn fun j : Fin 16 =>
    if j.val < 16 - nb.length then headByte w i j.val else nb.getD (j.val - (16 - nb.length)) 0#8

/-- The block `Q` sent to the oracle in round `i` (R154). -/
def roundQuery (i : BitVec 3) (tw : Tweak) (r : Nat) (src : Digits) : Block :=
  revBlock (roundBlock i (tweakHalf i tw) r src)

/-- The integer `y` of the oracle's answer `Rr`: `S = REVB(Rr)`, `y = BE(S)` (R155, R156). -/
def answerValue (rr : Block) : Nat := bigEndian (revBlock rr).toList

/-- The sum or difference that step 7 reduces (R157). -/
def foldSum (dir : Dir) (a y : Nat) : Int :=
  match dir with
  | .encrypt => (a : Int) + (y : Int)
  | .decrypt => (a : Int) - (y : Int)

/-- Steps 7 and 8 (R157, R158): `REV(STR_r^m(emod(x, r**m)))`; `none` where `STR_r^m` raises ValueTooLarge, that is
where `r**m = 0` (the law `Laws.renderHalf_eq`). -/
def renderHalf (r m : Nat) (x : Int) : Option Digits :=
  if r ^ m = 0 then none else some (rev (fixedDigits r m (emod x (r ^ m))))

/-- `ROUNDF(i, dir, TW, r, u, v, src, other)` (R159) with the oracle `ciph` under the key `k`. -/
def roundF (ciph : Oracle) (k : Bytes) (i : BitVec 3) (dir : Dir) (tw : Tweak) (r u v : Nat)
    (src other : Digits) : Option Digits :=
  renderHalf r (halfLength i u v)
    (foldSum dir (num r (rev other)) (answerValue (ciph k (roundQuery i tw r src))))

end Sys2Proof.Machine
end

