-- ==== Sys2Proof/Machine/Ops.lean ====
section
/-! DEFINITION. The named operations over the state: raising an error, loading the context, the split, one round,
the end of a transform, reset, and what the sequencer runs next. -/

namespace Sys2Proof.Machine

/-- The rows of the table of R225: which command an error ends. -/
inductive Failing where
  | illegalFrame
  | init
  | transform
deriving DecidableEq, Repr

/-- TAKING AN ERROR (`raise E`, R13, R220): the entry effects of R225's table, then the response `RS(E)`. There is
no handler and no return from one (R227). -/
def State.raise (f : Failing) (e : ErrorKind) (s : State) : State :=
  match f with
  | .illegalFrame => s.answer (responseRS e)
  | .init => s.invalidate.answer (responseRS e)
  | .transform => s.discardCall.answer (responseRS e)

/-- The context a successful INIT builds (R190); the key is stored reversed. TESTED (log entry 23). -/
def newContext (radix : Nat) (bounds : Nat × Nat) (t : Tweak) (klen : KeyVariant) (key : Bytes) : Context :=
  { radix := BitVec.ofNat 6 radix, minLen := BitVec.ofNat 8 bounds.1, maxLen := BitVec.ofNat 8 bounds.2,
    t := t, klen := klen, ko := revBytes key }

/-- INIT stores the new context and sets VALID (R190). -/
def State.configure (c : Context) (s : State) : State := { s with valid := true, ctx := c }

/-- The whole of INIT (R190). -/
def initCommand (radix : Byte) (key tweak : Bytes) (s : State) : State :=
  match initChecks radix.toNat key tweak with
  | .error e => s.raise .init e
  | .ok (klen, bounds, t) =>
    let c := newContext radix.toNat bounds t klen key
    (s.configure c).answer (responseRI c.minLen c.maxLen)

/-- The first round index of a schedule: 0 up for encrypt, 7 down for decrypt (R29, R174, R175). -/
def firstRound : Dir → BitVec 3
  | .encrypt => 0#3
  | .decrypt => 7#3

/-- `ceil(n / 2)` (R170). -/
def halfUp (n : Nat) : Nat := (n + 1) / 2

/-- The call registers after the split of the message `x` (R27, R170). -/
def splitCall (dir : Dir) (tw : Tweak) (x : Digits) : CallRegs :=
  { dir := dir, n := BitVec.ofNat 8 x.length, u := BitVec.ofNat 8 (halfUp x.length),
    v := BitVec.ofNat 8 (x.length - halfUp x.length), tw := tw,
    a := x.take (halfUp x.length), b := x.drop (halfUp x.length), ri := firstRound dir, rc := 0#4 }

/-- The front part of XFORM (R195): every check, then the split; the rounds follow as micro-operations of their own
(R183) and `State.finishTransform` sends the response. -/
def startTransform (dir : Dir) (sym : Bytes) (tweak : Option Bytes) (s : State) : State :=
  match transformChecks s.valid s.ctx sym tweak with
  | .error e => s.raise .transform e
  | .ok (tw, x) => { s with call := splitCall dir tw x, busy := true }

/-- The source half of a round: B for encrypt, A for decrypt (R150, R172, R173). -/
def sourceHalf (dir : Dir) (c : CallRegs) : Digits :=
  match dir with
  | .encrypt => c.b
  | .decrypt => c.a

/-- The half a round replaces: A for encrypt, B for decrypt (R150, R172, R173). -/
def otherHalf (dir : Dir) (c : CallRegs) : Digits :=
  match dir with
  | .encrypt => c.a
  | .decrypt => c.b

/-- RI after round `i`: one up (encrypt) or one down (decrypt), not written after the last round (R29, R172, R173;
log entry 17). -/
def nextRound (dir : Dir) (i ri : BitVec 3) : BitVec 3 :=
  match dir with
  | .encrypt => if i = 7#3 then ri else i + 1#3
  | .decrypt => if i = 0#3 then ri else i - 1#3

/-- A round moves its result in: `(A, B) <- (B, C)` or `(B, A) <- (A, C)`; RI and RC go on (R172, R173). -/
def CallRegs.roundMove (dir : Dir) (i : BitVec 3) (c : Digits) (q : CallRegs) : CallRegs :=
  match dir with
  | .encrypt => { q with a := q.b, b := c, ri := nextRound .encrypt i q.ri, rc := q.rc + 1#4 }
  | .decrypt => { q with b := q.a, a := c, ri := nextRound .decrypt i q.ri, rc := q.rc + 1#4 }

/-- The query a round sends from a state (R82, R154). -/
def stateQuery (dir : Dir) (i : BitVec 3) (s : State) : Block :=
  roundQuery i s.call.tw s.ctx.radix.toNat (sourceHalf dir s.call)

/-- The new half a round computes from a state (R159, R172, R173). -/
def stateHalf (ciph : Oracle) (dir : Dir) (i : BitVec 3) (s : State) : Option Digits :=
  roundF ciph s.ctx.key i dir s.call.tw s.ctx.radix.toNat s.call.u.toNat s.call.v.toNat
    (sourceHalf dir s.call) (otherHalf dir s.call)

/-- One round as a micro-operation (R172, R173) over any oracle: exactly one query, then the move. -/
def roundStep (ciph : Oracle) (dir : Dir) (i : BitVec 3) (s : State) : Host.Outcome State Fault Refusal :=
  match stateHalf ciph dir i s with
  | none => .fault .valueTooLarge
  | some c =>
    .next { s with call := s.call.roundMove dir i c, sent := s.sent ++ [.query s.ctx.key (stateQuery dir i s)] }

/-- The end of a transform when RC = 8 (R174 to R176, R195): the response `RM(N, symbols of A || B)`, and the call
registers are discarded. -/
def State.finishTransform (s : State) : State :=
  s.discardCall.answer (responseRM s.call.n (symbols (s.call.a ++ s.call.b)))

/-- The reset event at any time (R250, R251): the registers of State.reset; frames still waiting, what was sent and
the host's coming actions lie outside the engine and stay (log entry 8). -/
def State.assertReset (s : State) : State :=
  { s with valid := State.reset.valid, ctx := State.reset.ctx, busy := State.reset.busy, call := State.reset.call }

/-- The scheduler's control word `d i2 i1 i0` (R83). -/
def State.controlWord (s : State) : BitVec 4 := s.call.dir.bit ++ s.call.ri

/-- All eight rounds of the call in progress are done (R29, R174, R175). -/
def State.roundsDone (s : State) : Bool := s.call.rc == 8#4

/-- What the sequencer runs next: in a call the control word of its next round, else the oldest frame that waits;
nothing when the rounds are done or no frame waits (R29, R83, R196, R201). -/
def State.fetch (s : State) : Option Code :=
  if s.busy then (if s.roundsDone then none else some (.control s.controlWord))
  else s.waiting.head?.map .frame

/-- One action of the host on its command port (R200 (a)). -/
def State.offer (frame : Bytes) (s : State) : State := { s with waiting := s.waiting ++ [frame] }

end Sys2Proof.Machine
end

