-- ==== Sys2Proof/Machine/Commands.lean ====
section
/-! DEFINITION. The meanings of the host commands (45_host_commands.md R190 to R195). Each runs from the state in
which the command has been accepted and decoded. -/

namespace Sys2Proof.Machine

/-- INIT (R190). -/
def execInit (radix : Byte) (key tweak : Bytes) (s : State) : Host.Outcome State Fault Refusal :=
  .next (initCommand radix key tweak s)

/-- ENC: `XFORM(dir = 0, SYM, none)` (R191). -/
def execEnc (sym : Bytes) (s : State) : Host.Outcome State Fault Refusal :=
  .next (startTransform .encrypt sym none s)

/-- DEC: `XFORM(dir = 1, SYM, none)` (R192). -/
def execDec (sym : Bytes) (s : State) : Host.Outcome State Fault Refusal :=
  .next (startTransform .decrypt sym none s)

/-- ENCT: `XFORM(dir = 0, SYM, TWEAK)` (R193). -/
def execEnct (sym tweak : Bytes) (s : State) : Host.Outcome State Fault Refusal :=
  .next (startTransform .encrypt sym (some tweak) s)

/-- DECT: `XFORM(dir = 1, SYM, TWEAK)` (R194). -/
def execDect (sym tweak : Bytes) (s : State) : Host.Outcome State Fault Refusal :=
  .next (startTransform .decrypt sym (some tweak) s)

end Sys2Proof.Machine
end

