-- ==== Sys2Proof/Machine/Rounds.lean ====
section
/-! DEFINITION. The meanings of the scheduler's micro-operations (44_feistel_engine.md R172, R173). -/

namespace Sys2Proof.Machine

/-- RNDE i: one encrypt round (R172). DESIGN CHOICE (log entry 13): outside its precondition it runs as written. -/
def execRnde (i : BitVec 3) (s : State) : Host.Outcome State Fault Refusal :=
  roundStep Config.ciph .encrypt i s

/-- RNDD i: one decrypt round (R173). DESIGN CHOICE (log entry 13): outside its precondition it runs as written. -/
def execRndd (i : BitVec 3) (s : State) : Host.Outcome State Fault Refusal :=
  roundStep Config.ciph .decrypt i s

end Sys2Proof.Machine
end

