-- ==== Sys2Proof/Machine/Dispatch.lean ====
section
/-! DEFINITION. exec: one arm per instruction, each one call of its meaning. -/

namespace Sys2Proof.Machine

def exec (i : Instr) (s : State) : Host.Outcome State Fault Refusal :=
  match i with
  | .init radix key tweak => Sys2Proof.Machine.execInit radix key tweak s
  | .enc sym => Sys2Proof.Machine.execEnc sym s
  | .dec sym => Sys2Proof.Machine.execDec sym s
  | .enct sym tweak => Sys2Proof.Machine.execEnct sym tweak s
  | .dect sym tweak => Sys2Proof.Machine.execDect sym tweak s
  | .rnde k => Sys2Proof.Machine.execRnde k s
  | .rndd k => Sys2Proof.Machine.execRndd k s

end Sys2Proof.Machine
end

