-- ==== Sys2Proof/Machine/Engine.lean ====
section
/-! DEFINITION. One turn of the host and one turn of the engine, and the placing of a code where the next turn
fetches it (44_feistel_engine.md R183, 45_host_commands.md R196, R200, R201, 70_reset_and_hazards.md R251). -/

namespace Sys2Proof.Machine

/-- The host asserts reset in this step (R200 (c)). -/
def State.resetNow (s : State) : Bool := s.host.head? == some .reset

/-- The host's next action has been taken from its list, and a frame it offers waits (R196, R200). -/
def State.landed (s : State) : State :=
  match s.host with
  | [] => s
  | .offer frame :: rest => { s with host := rest }.offer frame
  | .quiet :: rest => { s with host := rest }
  | .reset :: rest => { s with host := rest }

/-- The state in which a fetched code runs: a frame has been accepted, a control word leaves the state as it is. -/
def State.fetched (s : State) : State := if s.busy then s else s.accept s.waiting.tail

/-- One turn of the engine: the next round of the call in progress, or the end of that call; else the acceptance,
decoding and running of the oldest waiting frame; else nothing (R90, R196, R201, R224). One micro-operation a turn is
DESIGN CHOICE (log entry 9); a turn with nothing to do is a next state (log entry 20). -/
def engineTurn (s : State) : Host.Outcome State Fault Refusal :=
  match s.fetch with
  | none => .next (if s.busy then s.finishTransform else s)
  | some code =>
    match decode code with
    | .ok i => exec i s.fetched
    | .error _ => .next (s.fetched.raise .illegalFrame .illegalCommand)

/-- The host's turn, then the engine's; in a step in which reset is asserted the engine does nothing else (R251). -/
def machineTurn (s : State) : Host.Outcome State Fault Refusal :=
  if s.resetNow then .next s.landed.assertReset else engineTurn s.landed

/-- The host's actions with a quiet one put before a reset that would land in the very next step. -/
def holdReset : List HostAction → List HostAction
  | .reset :: rest => .quiet :: .reset :: rest
  | actions => actions

/-- The direction a control word stands for (R83). -/
def controlDir (cw : BitVec 4) : Dir := if cw.getLsbD 3 then .decrypt else .encrypt

/-- The round index a control word holds (R83). -/
def controlRound (cw : BitVec 4) : BitVec 3 := cw.setWidth 3

/-- The round count that goes with a scheduled control word: how many rounds of its direction come before it. -/
def roundsBefore (dir : Dir) (i : BitVec 3) : BitVec 4 :=
  match dir with
  | .encrypt => i.setWidth 4
  | .decrypt => 7#4 - i.setWidth 4

/-- The call registers with the scheduler at round `i` of a direction. -/
def CallRegs.atRound (dir : Dir) (i : BitVec 3) (q : CallRegs) : CallRegs :=
  { q with dir := dir, ri := i, rc := roundsBefore dir i }

/-- `s` with a code placed where the next step fetches: a frame is the oldest waiting one and the engine is free to
accept it; a control word is the scheduler's, with a call in progress at that round (log entry 10). -/
def State.withCode (s : State) : Code → State
  | .frame bytes => { s with host := holdReset s.host, busy := false, waiting := bytes :: s.waiting }
  | .control cw =>
    { s with host := holdReset s.host, busy := true, call := s.call.atRound (controlDir cw) (controlRound cw) }

end Sys2Proof.Machine
end

