-- ==== Sys2Proof/Machine/Step.lean ====
section
/-! DEFINITION. The step function, and the placing of an instruction where it fetches next. -/

namespace Sys2Proof.Machine

/-- One step: one action of the host, then one action of the engine, which is at most one micro-operation (R183). -/
def step (s : State) : Host.Outcome State Fault Refusal := machineTurn s

/-- `s` with the instruction whose bits are `w` placed where `step` fetches its next instruction. -/
def State.withFetchWord (s : State) (nbits w : Nat) : State := s.withCode (tableCode nbits w)

end Sys2Proof.Machine
end

