-- ==== Sys2Proof/Machine/Assembler.lean ====
section
/-! DEFINITION. The text form of commands and responses (30_encoding.md R77, R92, R93). This is the host's side: hex decoding and
the default radix are no part of the engine, and no step uses this file (log entry 24). -/

namespace Sys2Proof.Machine

/-- A line of text, character by character. -/
abbrev Text := List Char

/-- Without the white space it begins with. -/
def skipSpace (t : Text) : Text := t.dropWhile fun c => c == ' ' || c == '\t'

/-- What follows `lead`, where the text begins with it. -/
def afterLead : (lead : Text) → Text → Option Text
  | [], t => some t
  | c :: lead, d :: t => if c = d then afterLead lead t else none
  | _ :: _, [] => none

/-- White space or a comment, to the end of the line: "A `;` starts a comment" (R92). -/
def lineEnds (t : Text) : Bool :=
  match skipSpace t with
  | [] => true
  | c :: _ => c == ';'

/-- The value of a hex digit, "either letter case" (R77). -/
def hexDigit (c : Char) : Option Nat :=
  if '0' ≤ c ∧ c ≤ '9' then some (c.toNat - '0'.toNat)
  else if 'a' ≤ c ∧ c ≤ 'f' then some (c.toNat - 'a'.toNat + 10)
  else if 'A' ≤ c ∧ c ≤ 'F' then some (c.toNat - 'A'.toNat + 10)
  else none

/-- Hex decoding (R77): two characters a byte, "the first character the high nibble". An odd length or a character
that is no hex digit decodes to nothing. -/
def hexBytes : Text → Option Bytes
  | [] => some []
  | [_] => none
  | c :: d :: t =>
    match hexDigit c, hexDigit d, hexBytes t with
    | some hi, some lo, some bs => some (BitVec.ofNat 8 (16 * hi + lo) :: bs)
    | _, _, _ => none

/-- The longest run of hex digits a text begins with, decoded, and what follows it. -/
def takeHex (t : Text) : Option (Bytes × Text) :=
  (hexBytes (t.takeWhile fun c => (hexDigit c).isSome)).map fun bs => (bs, t.dropWhile fun c => (hexDigit c).isSome)

/-- A decimal number 0..255 and what follows it (R92). -/
def takeDecimal (t : Text) : Option (Byte × Text) :=
  let ds := t.takeWhile fun c => '0' ≤ c ∧ c ≤ '9'
  let n := ds.foldl (fun acc c => acc * 10 + (c.toNat - '0'.toNat)) 0
  if ds = [] ∨ 256 ≤ n then none else some (BitVec.ofNat 8 n, t.dropWhile fun c => '0' ≤ c ∧ c ≤ '9')

/-- The bytes of a message's characters: one ASCII code a character (R76, R92). -/
def asciiBytes (t : Text) : Option Bytes :=
  if t.all (fun c => c.toNat < 128) then some (t.map fun c => BitVec.ofNat 8 c.toNat) else none

/-- A message in quotation marks and what follows it (R92). -/
def takeMessage (t : Text) : Option (Bytes × Text) :=
  match skipSpace t with
  | '"' :: t =>
    match asciiBytes (t.takeWhile (· ≠ '"')), t.dropWhile (· ≠ '"') with
    | some sym, _ :: rest => some (sym, rest)
    | _, _ => none
  | _ => none

/-- `name=<hex>` and what follows it. -/
def takeHexField (name : Text) (t : Text) : Option (Bytes × Text) :=
  (afterLead (name ++ ['=']) (skipSpace t)).bind takeHex

/-- A comma, after white space, and what follows it. -/
def afterComma (t : Text) : Option Text := afterLead [','] (skipSpace t)

/-- The operands of INIT; with no `radix=` the radix is RADIX_DEFAULT (R92, R93). -/
def initLine (t : Text) : Option Instr := do
  let (key, t) ← takeHexField ['k', 'e', 'y'] t
  let (tweak, t) ← takeHexField ['t', 'w', 'e', 'a', 'k'] (← afterComma t)
  if lineEnds t then return .init (BitVec.ofNat 8 Config.radixDefault) key tweak
  let (radix, t) ← takeDecimal (← afterLead ['r', 'a', 'd', 'i', 'x', '='] (skipSpace (← afterComma t)))
  if lineEnds t then return .init radix key tweak else none

/-- The operands of ENC and DEC (R92). -/
def messageLine (make : Bytes → Instr) (t : Text) : Option Instr := do
  let (sym, t) ← takeMessage t
  if lineEnds t then return make sym else none

/-- The operands of ENCT and DECT (R92). -/
def tweakLine (make : Bytes → Bytes → Instr) (t : Text) : Option Instr := do
  let (sym, t) ← takeMessage t
  let (tweak, t) ← takeHexField ['t', 'w', 'e', 'a', 'k'] (← afterComma t)
  if lineEnds t then return make sym tweak else none

/-- The command a line of text stands for: R92's five, and R93's other spellings NEW, ENCRYPT and DECRYPT, the last
two with or without a tweak. -/
def assemble (line : Text) : Option Instr :=
  let t := skipSpace line
  let name := t.takeWhile Char.isAlpha
  let operands := t.dropWhile Char.isAlpha
  if name = ['I', 'N', 'I', 'T'] ∨ name = ['N', 'E', 'W'] then initLine operands
  else if name = ['E', 'N', 'C'] then messageLine .enc operands
  else if name = ['D', 'E', 'C'] then messageLine .dec operands
  else if name = ['E', 'N', 'C', 'T'] then tweakLine .enct operands
  else if name = ['D', 'E', 'C', 'T'] then tweakLine .dect operands
  else if name = ['E', 'N', 'C', 'R', 'Y', 'P', 'T'] then
    (tweakLine .enct operands).orElse fun _ => messageLine .enc operands
  else if name = ['D', 'E', 'C', 'R', 'Y', 'P', 'T'] then
    (tweakLine .dect operands).orElse fun _ => messageLine .dec operands
  else none

/-- The error names of R84. -/
def ErrorKind.name : ErrorKind → String
  | .invalidKeyLength => "InvalidKeyLength"
  | .invalidRadix => "InvalidRadix"
  | .invalidDomainBounds => "InvalidDomainBounds"
  | .invalidTweakLength => "InvalidTweakLength"
  | .invalidMessageLength => "InvalidMessageLength"
  | .invalidDigitForRadix => "InvalidDigitForRadix"
  | .valueTooLarge => "ValueTooLarge"
  | .notConfigured => "NotConfigured"
  | .illegalCommand => "IllegalCommand"

/-- The characters of ASCII bytes (R76). -/
def asciiText (z : Bytes) : Text := z.map fun b => Char.ofNat b.toNat

/-- A number in decimal. -/
def decimalText (n : Nat) : Text := if n = 0 then ['0'] else asciiText (symbols (naturalDigits 10 n n))

/-- The text of an error response, "`-> <error name>`" (R92). -/
def errorResponseLine (e : ErrorKind) : Text := "-> ".toList ++ e.name.toList

/-- The text of a transform's response, "`-> OK <payload>`" with the symbols in quotation marks (R92). -/
def messageResponseLine (sym : Bytes) : Text := "-> OK ".toList ++ ('"' :: asciiText sym) ++ ['"']

/-- The text of INIT's response, "`-> OK <payload>`" with the two bounds in decimal (R92; log entry 24). -/
def boundsResponseLine (minLen maxLen : BitVec 8) : Text :=
  "-> OK ".toList ++ decimalText minLen.toNat ++ ", ".toList ++ decimalText maxLen.toNat

end Sys2Proof.Machine
end

