-- ==== Sys2Proof/Machine/Schedule.lean ====
section
/-! DEFINITION. A transform as one indivisible step, which is how the host sees it (44_feistel_engine.md R174, R175,
R176, R182, R183). No step runs this function: the machine runs one micro-operation a step, and R183 asks that
the two views agree. -/

namespace Sys2Proof.Machine

/-- The half registers A and B. -/
structure Halves where
  a : Digits
  b : Digits
deriving DecidableEq, Repr

/-- What stays the same in the eight rounds of one call (R27): the key bytes presented, radix, U, V, TW. -/
structure CallParams where
  k : Bytes
  r : Nat
  u : Nat
  v : Nat
  tw : Tweak
deriving DecidableEq, Repr

/-- The query of `RNDE i` or `RNDD i` on the halves (R154): it depends on the source half alone. -/
def CallParams.query (p : CallParams) (dir : Dir) (i : BitVec 3) (h : Halves) : Block :=
  match dir with
  | .encrypt => roundQuery i p.tw p.r h.b
  | .decrypt => roundQuery i p.tw p.r h.a

/-- `RNDE i` or `RNDD i` on the halves alone (R172, R173). -/
def CallParams.round (ciph : Oracle) (p : CallParams) (dir : Dir) (i : BitVec 3) (h : Halves) : Option Halves :=
  match dir with
  | .encrypt => (roundF ciph p.k i .encrypt p.tw p.r p.u p.v h.b h.a).map fun c => { a := h.b, b := c }
  | .decrypt => (roundF ciph p.k i .decrypt p.tw p.r p.u p.v h.a h.b).map fun c => { a := c, b := h.a }

/-- The round indices of a schedule in order (R174, R175). -/
def schedule : Dir → List (BitVec 3)
  | .encrypt => [0#3, 1#3, 2#3, 3#3, 4#3, 5#3, 6#3, 7#3]
  | .decrypt => [7#3, 6#3, 5#3, 4#3, 3#3, 2#3, 1#3, 0#3]

/-- The rounds of a list of indices one after another, with the queries they send in order (R182). -/
def CallParams.rounds (ciph : Oracle) (p : CallParams) (dir : Dir) : List (BitVec 3) → Halves → Option (Halves × List Block)
  | [], h => some (h, [])
  | i :: is, h =>
    match p.round ciph dir i h with
    | none => none
    | some h' => (p.rounds ciph dir is h').map fun out => (out.1, p.query dir i h :: out.2)

/-- The split of a message (R170). -/
def splitHalves (x : Digits) : Halves := { a := x.take (halfUp x.length), b := x.drop (halfUp x.length) }

/-- The parameters of a call on a message of length `n` in a context (R27). -/
def callParams (ctx : Context) (tw : Tweak) (n : Nat) : CallParams :=
  { k := ctx.key, r := ctx.radix.toNat, u := halfUp n, v := n - halfUp n, tw := tw }

/-- `ENCRYPT(X, TW)` or `DECRYPT(X, TW)` (R174, R175) with its eight queries: the output `A || B` (R176). -/
def transform (ciph : Oracle) (ctx : Context) (dir : Dir) (tw : Tweak) (x : Digits) : Option (Digits × List Block) :=
  ((callParams ctx tw x.length).rounds ciph dir (schedule dir) (splitHalves x)).map fun out =>
    (out.1.a ++ out.1.b, out.2)

end Sys2Proof.Machine
end

