-- ==== Sys2Proof/Safety.lean ====
section
/-! DEFINITION. What counts as a well-kept state, a safe step and an equal view from outside, in the terms that
claims use. -/

namespace Sys2Proof.Machine

/-- What CTX holds while VALID = 1 (R22, R23, R25): a legal radix, the bounds derived from it, KLEN key bytes. -/
structure Context.Legal (c : Context) : Prop where
  radix_min : 2 ≤ c.radix.toNat
  radix_max : c.radix.toNat ≤ 36
  minLen_eq : c.minLen.toNat = minLength c.radix.toNat
  maxLen_eq : c.maxLen.toNat = maxLength c.radix.toNat
  key_length : c.ko.length = c.klen.bytes

/-- RI as a number after `rc` rounds of a direction (R29): up from 0 or down from 7. R29 gives RI no value after the eighth
round; that it is left where it was, at 7 or 0, is DEDUCED (log entry 17). -/
def roundAfter (dir : Dir) (rc : Nat) : Nat :=
  match dir with
  | .encrypt => min rc 7
  | .decrypt => 7 - min rc 7

/-- What the call registers hold while a transform executes (R27, R28, R29, R177); `ri_eq` for RC = 8 is log entry 17's. -/
structure CallRegs.Legal (c : Context) (q : CallRegs) : Prop where
  n_min : c.minLen.toNat ≤ q.n.toNat
  n_max : q.n.toNat ≤ c.maxLen.toNat
  u_eq : q.u.toNat = halfUp q.n.toNat
  v_eq : q.v.toNat = q.n.toNat - halfUp q.n.toNat
  rc_max : q.rc.toNat ≤ 8
  ri_eq : q.ri.toNat = roundAfter q.dir q.rc.toNat
  a_length : q.a.length = if q.rc.toNat % 2 = 0 then q.u.toNat else q.v.toNat
  b_length : q.b.length = if q.rc.toNat % 2 = 0 then q.v.toNat else q.u.toNat
  a_digits : ∀ d ∈ q.a, d < c.radix.toNat
  b_digits : ∀ d ∈ q.b, d < c.radix.toNat

/-- The invariant of the machine: a context is legal while VALID = 1, and while BUSY = 1 there is a context and the
call registers are legal for it. -/
structure State.Inv (s : State) : Prop where
  context : s.valid = true → s.ctx.Legal
  configured : s.busy = true → s.valid = true
  call : s.busy = true → s.call.Legal s.ctx

/-- A step that ends in a next state. -/
def State.SafeStep (s : State) : Prop := ∃ t, step s = .next t

/-- Two states that differ in nothing a rule reads (R35, R250): the registers of CTX may differ while VALID = 0 and no
call is in progress, the call registers while BUSY = 0, the count of free values always. -/
structure State.SameView (s t : State) : Prop where
  valid : s.valid = t.valid
  busy : s.busy = t.busy
  waiting : s.waiting = t.waiting
  sent : s.sent = t.sent
  host : s.host = t.host
  ctx : s.valid = true ∨ s.busy = true → s.ctx = t.ctx
  call : s.busy = true → s.call = t.call

/-- The frames that a list of the host's actions offers, in order. -/
def offeredFrames (actions : List HostAction) : List Bytes :=
  actions.filterMap fun
    | .offer frame => some frame
    | _ => none

/-- The operands with which a transform command calls the common body XFORM (R191 to R195): direction, symbols and
the per-call tweak where there is one; none for the other instructions. -/
def transformRequest : Instr → Option (Dir × Bytes × Option Bytes)
  | .init _ _ _ => none
  | .enc sym => some (.encrypt, sym, none)
  | .dec sym => some (.decrypt, sym, none)
  | .enct sym tweak => some (.encrypt, sym, some tweak)
  | .dect sym tweak => some (.decrypt, sym, some tweak)
  | .rnde _ => none
  | .rndd _ => none

/-- The legal frames as R90 states them: byte 0 is one of the five opcodes, and the length is the total length that its
format gives from the length bytes it holds. -/
def LegalFrame (f : Bytes) : Prop :=
  (f[0]? = some 0x01#8 ∧ ∃ klen tlen, f[2]? = some klen ∧ f[3]? = some tlen ∧ f.length = 4 + klen.toNat + tlen.toNat) ∨
    ((f[0]? = some 0x02#8 ∨ f[0]? = some 0x03#8) ∧ ∃ n, f[1]? = some n ∧ f.length = 2 + n.toNat) ∨
    ((f[0]? = some 0x06#8 ∨ f[0]? = some 0x07#8) ∧
      ∃ n tlen, f[1]? = some n ∧ f[2]? = some tlen ∧ f.length = 3 + n.toNat + tlen.toNat)

/-- How many response frames have been sent. -/
def responseCount (sent : List Event) : Nat :=
  sent.countP fun
    | .response _ => true
    | .query _ _ => false

/-- `k` steps of the machine. -/
def runSteps (k : Nat) (s : State) : Host.Outcome State Fault Refusal := Host.Core.run Sys2Proof.core k s

end Sys2Proof.Machine
end

