-- ==== Sys2Proof/Certificates/Slice0/Obligations.lean ====
section
/-! DEFINITION. The statements for the provers. Each docstring names the rules of spec/ it formalises, or the log
entry where it rests on a choice of the model. -/

open Sys2Proof Sys2Proof.Machine

/-! ### Encoding -/

/-- R70 to R74, R83, R91: every well-formed instruction, with every operand at every value its encoding admits, is what
its own code decodes to. -/
def Obligations.DecodeOfEncodeIsTheInstruction : Prop :=
  ∀ i : Instr, WellFormed i → decode (encode i) = .ok i

/-- R70 to R74, R83, R90: a code that decodes has one reading and one spelling: it is the encoding of the instruction it
decodes to, and that instruction is well-formed. -/
def Obligations.EncodeOfDecodeIsTheCode : Prop :=
  ∀ (c : Code) (i : Instr), decode c = .ok i → encode i = c ∧ WellFormed i

/-- R90: a byte string is a legal frame exactly as the formats say, and the engine answers every other one that it takes
with `RS(IllegalCommand)` and no other effect. (That a step is one action of the host and then the engine's turn is
OneHostActionLandsPerStep.) -/
def Obligations.IllegalFramesAreAnsweredIllegalCommand : Prop :=
  ∀ (s : State) (f : Bytes) (rest : List Bytes), s.busy = false → s.waiting = f :: rest →
    ((∃ i, decodeFrame f = .ok i) ↔ LegalFrame f) ∧
      (¬ LegalFrame f →
        engineTurn s = .next { s with waiting := rest, sent := s.sent ++ [.response [0x09#8]] })

/-- R71 to R74, R83: words written out from the spec's layouts decode to the instructions they stand for. -/
def Obligations.SpelledWordsDecode : Prop :=
  decode (.frame [0x01, 0x0a, 0x02, 0x01, 0xef, 0x43, 0xd8]) = .ok (.init 0x0a [0xef, 0x43] [0xd8]) ∧
    decode (.frame [0x02, 0x03, 0x31, 0x32, 0x33]) = .ok (.enc [0x31, 0x32, 0x33]) ∧
    decode (.frame [0x03, 0x00]) = .ok (.dec []) ∧
    decode (.frame [0x06, 0x01, 0x02, 0x61, 0xfa, 0x33]) = .ok (.enct [0x61] [0xfa, 0x33]) ∧
    decode (.frame [0x07, 0x02, 0x01, 0x61, 0x7a, 0xfa]) = .ok (.dect [0x61, 0x7a] [0xfa]) ∧
    decode (.control 0b0101#4) = .ok (.rnde 5#3) ∧ decode (.control 0b1110#4) = .ok (.rndd 6#3)

/-- The text form of R92 and R93's default radix on one line each (the assembler's layout rules are log entry 24). -/
def Obligations.AssemblerSpellingsOfOneCommand : Prop :=
  assemble "INIT key=EF43, tweak=d8".toList = some (.init 10#8 [0xef#8, 0x43#8] [0xd8#8]) ∧
    assemble "NEW key=EF43, tweak=d8, radix=36 ; text".toList = some (.init 36#8 [0xef#8, 0x43#8] [0xd8#8]) ∧
    assemble "ENCRYPT \"a9\"".toList = some (.enc [0x61#8, 0x39#8]) ∧
    assemble "DECRYPT \"a9\", tweak=00ff".toList = some (.dect [0x61#8, 0x39#8] [0x00#8, 0xff#8])

/-! ### One step -/

/-- When the code the sequencer fetches decodes to an instruction, the step runs that instruction: in a call from the
state as it is, else from the state in which its frame has been accepted (R196). Landing is log entry 7's. -/
def Obligations.StepRunsTheDecodedInstruction : Prop :=
  ∀ (s : State) (code : Code) (i : Instr),
    s.resetNow = false → s.landed.fetch = some code → decode code = .ok i →
      step s = exec i s.landed.fetched ∧
        (s.busy = true → s.landed.fetched = s.landed) ∧
        (s.busy = false → s.landed.fetched = { s.landed with waiting := s.landed.waiting.tail, busy := true })

/-- The model's choice (log entry 7) of how R200's host is an input: one action of its list lands in one step, before
the engine's turn; an offered frame waits behind those already waiting (R196). -/
def Obligations.OneHostActionLandsPerStep : Prop :=
  (∀ s : State, s.host = [] → step s = engineTurn s) ∧
    (∀ (s : State) (rest : List HostAction), s.host = .quiet :: rest → step s = engineTurn { s with host := rest }) ∧
    (∀ (s : State) (f : Bytes) (rest : List HostAction), s.host = .offer f :: rest →
      step s = engineTurn { s with host := rest, waiting := s.waiting ++ [f] })

/-- R29, R83, R174, R175: in a call whose eight rounds are not done, the step runs the round that DIR and RI select. -/
def Obligations.BusyStepRunsTheScheduledRound : Prop :=
  ∀ s : State, s.resetNow = false → s.busy = true → s.call.rc ≠ 8#4 →
    (s.call.dir = .encrypt → step s = exec (.rnde s.call.ri) s.landed) ∧
      (s.call.dir = .decrypt → step s = exec (.rndd s.call.ri) s.landed)

/-- R174 to R176, R195: with eight rounds done the step answers `RM(0x00, N, symbols of A || B)`, BUSY becomes 0, and
nothing else changes but the call registers, which hold free values (log entries 4 and 5). -/
def Obligations.CallEndsWithTheResponse : Prop :=
  ∀ s : State, s.resetNow = false → s.busy = true → s.call.rc = 8#4 →
    ∃ (q : CallRegs) (d : Nat), step s = .next { s.landed with
      busy := false, call := q, drawn := d,
      sent := s.sent ++ [.response (0x00#8 :: s.call.n :: symbols (s.call.a ++ s.call.b))] }

/-- R201: with no command offered and none executing the engine does nothing and sends no query. -/
def Obligations.IdleStepDoesNothing : Prop :=
  ∀ s : State, s.resetNow = false → s.busy = false → s.landed.waiting = [] → step s = .next s.landed

/-- R196, R30: a step in a call takes no waiting frame; what the host offers meanwhile waits behind the rest. -/
def Obligations.BusyStepTakesNoCommand : Prop :=
  ∀ s t : State, s.resetNow = false → s.busy = true → step s = .next t →
    t.waiting = s.waiting ++ offeredFrames (s.host.take 1)

/-- R250: what the spec gives the state after reset. -/
def Obligations.ResetStateIsUnconfigured : Prop :=
  State.reset.valid = false ∧ State.reset.busy = false

/-- R250, R251: reset asserted at any time, in a call or not, leaves VALID = 0 and BUSY = 0, and sends nothing. -/
def Obligations.ResetAbandonsTheCommand : Prop :=
  ∀ (s : State) (rest : List HostAction), s.host = .reset :: rest →
    ∃ t, step s = .next t ∧ t.valid = false ∧ t.busy = false ∧ t.sent = s.sent ∧ t.host = rest

/-- R251 ("the state is that of rule R250") with the model's choice of log entry 8, that frames still waiting stay:
after a reset nothing a rule reads tells the machine from one just reset. -/
def Obligations.ResetStateIsTheResetView : Prop :=
  ∀ (s t : State) (rest : List HostAction), s.host = .reset :: rest → step s = .next t →
    t.SameView { State.reset with waiting := s.waiting, sent := s.sent, host := rest }

/-- The placing of a table word (log entries 10 and 11): the very next step runs the instruction the decoder reads from
it. -/
def Obligations.PlacedWordRunsNext : Prop :=
  ∀ (s : State) (nbits w : Nat) (i : Instr), decodeTableWord nbits w = some i →
    ∃ t, t.busy = true ∧ t.valid = s.valid ∧ t.ctx = s.ctx ∧ t.sent = s.sent ∧
      step (s.withFetchWord nbits w) = exec i t

/-! ### The domain validator and the operands -/

/-- R100, for every radix from 2 on. -/
def Obligations.MinLenIsTheLeastPower : Prop :=
  ∀ r : Nat, 2 ≤ r → 1000000 ≤ r ^ minLength r ∧ ∀ m, 1000000 ≤ r ^ m → minLength r ≤ m

/-- R101, for every radix from 2 on. -/
def Obligations.MaxLenIsTwiceTheGreatestPower : Prop :=
  ∀ r : Nat, 2 ≤ r → ∃ k, maxLength r = 2 * k ∧ r ^ k ≤ 2 ^ 96 ∧ ∀ j, r ^ j ≤ 2 ^ 96 → j ≤ k

/-- R103: the bounds of radix 2 to 36, row by row, and their consequences. -/
def Obligations.BoundsOfEveryRadix : Prop :=
  (List.range' 2 35).map (fun r => (minLength r, maxLength r)) =
      [(20, 192), (13, 120), (10, 96), (9, 82), (8, 74), (8, 68), (7, 64), (7, 60), (6, 56), (6, 54), (6, 52), (6, 50),
       (6, 50), (6, 48), (5, 48), (5, 46), (5, 46), (5, 44), (5, 44), (5, 42), (5, 42), (5, 42), (5, 40), (5, 40),
       (5, 40), (5, 40), (5, 38), (5, 38), (5, 38), (5, 38), (4, 38), (4, 38), (4, 36), (4, 36), (4, 36)] ∧
    ∀ r : Nat, 2 ≤ r → r ≤ 36 → 4 ≤ minLength r ∧ minLength r ≤ 20 ∧ 36 ≤ maxLength r ∧ maxLength r ≤ 192 ∧
      2 ≤ minLength r / 2 ∧ r ^ (maxLength r / 2) ≤ 2 ^ 96

/-- R104. -/
def Obligations.KeyVariantIsTheKeySize : Prop :=
  (∀ (n : Nat) (v : KeyVariant), keyVariant n = .ok v ↔ n = v.bytes) ∧
    (∀ n : Nat, n ≠ 16 → n ≠ 24 → n ≠ 32 → keyVariant n = .error .invalidKeyLength) ∧
    (∀ v : KeyVariant, v.strength = 8 * v.bytes ∧ (v.bytes = 16 ∨ v.bytes = 24 ∨ v.bytes = 32))

/-- R236: no operands of INIT make its checks answer InvalidDomainBounds, so INIT, which always answers, never answers
it. -/
def Obligations.InitNeverRaisesDomainBounds : Prop :=
  (∀ (radix : Nat) (key tweak : Bytes), initChecks radix key tweak ≠ .error .invalidDomainBounds) ∧
    ∀ (s : State) (radix : Byte) (key tweak : Bytes), ∃ t, exec (.init radix key tweak) s = .next t ∧
      t.sent ≠ s.sent ++ [.response [ErrorKind.invalidDomainBounds.code]]

/-- R76: the table of symbols, validity for a radix, and that the digits 0..35 are rendered by their own symbols. -/
def Obligations.SymbolsAreTheLowerCaseAlphabet : Prop :=
  (∀ (b : Byte) (d : Nat), symbolDigit b = some d ↔
      (0x30 ≤ b.toNat ∧ b.toNat ≤ 0x39 ∧ d = b.toNat - 0x30) ∨
        (0x61 ≤ b.toNat ∧ b.toNat ≤ 0x7A ∧ d = b.toNat - 0x61 + 10)) ∧
    (∀ (r : Nat) (b : Byte) (d : Nat), radixDigit r b = some d ↔ symbolDigit b = some d ∧ d < r) ∧
    ∀ d : Nat, d < 36 → symbolDigit (digitSymbol d) = some d

/-- R107: the digit check answers the digits of the symbols, each below the radix, or InvalidDigitForRadix where some
byte is no symbol of the radix. -/
def Obligations.CheckDigitsIsExact : Prop :=
  ∀ (r : Nat) (sym : Bytes),
    (∀ x : Digits, checkDigits r sym = .ok x ↔ List.Forall₂ (fun b d => symbolDigit b = some d ∧ d < r) sym x) ∧
      (checkDigits r sym = .error .invalidDigitForRadix ↔ ∃ b ∈ sym, ∀ d, symbolDigit b = some d → r ≤ d)

/-- R120: eight bytes pass through, seven are spread with two nibbles cleared, any other length is refused, and no two
7-byte tweaks expand alike. -/
def Obligations.ExpandIsTheCanonicalTweak : Prop :=
  (∀ t : Bytes, t.length = 8 → ∃ T : Tweak, expand t = .ok T ∧ T.toList = t) ∧
    (∀ t0 t1 t2 t3 t4 t5 t6 : Byte, expand [t0, t1, t2, t3, t4, t5, t6] =
      .ok #v[t0, t1, t2, t3 &&& 0xF0#8, t4, t5, t6, (t3 &&& 0x0F#8) <<< 4]) ∧
    (∀ t : Bytes, t.length ≠ 7 → t.length ≠ 8 → expand t = .error .invalidTweakLength) ∧
    ∀ t t' : Bytes, t.length = 7 → t'.length = 7 → expand t = expand t' → t = t'

/-- R121. -/
def Obligations.SplitIsTheTwoHalvesInOrder : Prop :=
  ∀ T : Tweak, (tweakLeft T).toList = T.toList.take 4 ∧ (tweakRight T).toList = T.toList.drop 4

/-- R123: INIT with a tweak and INIT with its expanded form build the same context and do all else alike. -/
def Obligations.ExpandedTweakBuildsTheSameContext : Prop :=
  ∀ (s : State) (radix : Byte) (key t : Bytes) (T : Tweak), expand t = .ok T →
    exec (.init radix key t) s = exec (.init radix key T.toList) s

/-! ### The radix codec -/

/-- R130: the sum, its bound, and the empty string. -/
def Obligations.NumIsThePositionalSum : Prop :=
  ∀ (r : Nat) (x : Digits),
    num r x = ∑ j ∈ Finset.range x.length, x.getD j 0 * r ^ (x.length - 1 - j) ∧
      ((∀ d ∈ x, d < r) → num r x < r ^ x.length) ∧ num r [] = 0

/-- R131: the string of exactly `m` digits that spells `x`, or ValueTooLarge exactly when `x >= r**m`. -/
def Obligations.StrSpellsOrIsTooLarge : Prop :=
  ∀ r m x : Nat, 2 ≤ r →
    (r ^ m ≤ x → toDigitString r m x = .error .valueTooLarge) ∧
      (x < r ^ m → ∃ d : Digits, toDigitString r m x = .ok d ∧ d.length = m ∧ (∀ e ∈ d, e < r) ∧ num r d = x)

/-- R132: the minimal big-endian bytes of a number are the one byte string with that value and no leading zero byte. -/
def Obligations.BytesAreMinimalBigEndian : Prop :=
  ∀ (x : Nat) (z : Bytes), toFixedBytes x = z ↔ bigEndian z = x ∧ z.head? ≠ some 0x00#8

/-- R135: the sum, the inverse of BYTES, leading zero bytes, and the bound of 16 bytes. -/
def Obligations.BigEndianIsThePositionalSum : Prop :=
  (∀ z : Bytes, bigEndian z = ∑ j ∈ Finset.range z.length, (z.getD j 0#8).toNat * 256 ^ (z.length - 1 - j)) ∧
    (∀ x : Nat, bigEndian (toFixedBytes x) = x) ∧
    (∀ z : Bytes, bigEndian (0x00#8 :: z) = bigEndian z) ∧
    ∀ z : Bytes, z.length = 16 → bigEndian z < 2 ^ 128

/-- R136: the Euclidean remainder is the one number below `q` that differs from `a` by a multiple of `q`, and is the
truncating remainder made nonnegative. -/
def Obligations.EmodIsTheEuclideanRemainder : Prop :=
  ∀ (a : Int) (q : Nat), 1 ≤ q →
    (∀ c : Nat, c = emod a q ↔ c < q ∧ (q : Int) ∣ a - (c : Int)) ∧
      (emod a q : Int) = if 0 ≤ Int.tmod a q then Int.tmod a q else Int.tmod a q + q

/-- R139 (a), (b), (c): the inverse laws. -/
def Obligations.CodecInverseLaws : Prop :=
  (∀ r m x : Nat, 2 ≤ r → x < r ^ m → ∃ d : Digits, toDigitString r m x = .ok d ∧ num r d = x) ∧
    (∀ (r : Nat) (x : Digits), 2 ≤ r → (∀ d ∈ x, d < r) → toDigitString r x.length (num r x) = .ok x) ∧
    ∀ (a y : Int) (q : Nat), 1 ≤ q →
      emod ((emod (a + y) q : Int) - y) q = emod a q ∧ emod ((emod (a - y) q : Int) + y) q = emod a q

/-! ### One round -/

/-- R152, R153: the head of the block, and that P[4..15] is the 12-byte big-endian form of NUM_r(REV(src)), which fits
since `len(src) <= maxLen/2`. -/
def Obligations.RoundBlockHoldsTweakIndexAndHalf : Prop :=
  ∀ (i : BitVec 3) (w : TweakHalf) (r : Nat) (src : Digits),
    2 ≤ r → r ≤ 36 → (∀ d ∈ src, d < r) → src.length ≤ maxLength r / 2 →
      (roundBlock i w r src)[0] = w[0] ∧ (roundBlock i w r src)[1] = w[1] ∧ (roundBlock i w r src)[2] = w[2] ∧
        (roundBlock i w r src)[3] = w[3] ^^^ i.setWidth 8 ∧
        bigEndian ((roundBlock i w r src).toList.drop 4) = num r (rev src) ∧ num r (rev src) < 2 ^ 96

/-- R154, R156: `Q[j] = P[15 - j]`; `y = BE(S)` with `S[j] = Rr[15 - j]`, which is the little-endian value of the
oracle's answer, below 2**128. -/
def Obligations.QueryAndAnswerAreByteReversed : Prop :=
  (∀ (i : BitVec 3) (tw : Tweak) (r : Nat) (src : Digits) (j : Nat) (hj : j < 16),
      (roundQuery i tw r src)[j] = (roundBlock i (tweakHalf i tw) r src)[15 - j]) ∧
    ∀ rr : Block, (∃ S : Block, (∀ (j : Nat) (hj : j < 16), S[j] = rr[15 - j]) ∧ answerValue rr = bigEndian S.toList) ∧
      answerValue rr = ∑ j ∈ Finset.range 16, (rr.toList.getD j 0#8).toNat * 256 ^ j ∧
      answerValue rr < 2 ^ 128

/-- R151: the tweak half and the length of the half produced, by the parity of the round index. -/
def Obligations.ParitySelectsTweakHalfAndLength : Prop :=
  ∀ (i : BitVec 3) (tw : Tweak) (u v : Nat),
    (i.toNat % 2 = 0 → tweakHalf i tw = tweakRight tw ∧ halfLength i u v = u) ∧
      (i.toNat % 2 = 1 → tweakHalf i tw = tweakLeft tw ∧ halfLength i u v = v)

/-- R157, R158: over any oracle the round reduces the exact sum or difference by the Euclidean remainder, below
`r**m`, and answers the reversed rendering, which never raises. -/
def Obligations.RoundFoldsByEuclideanRemainder : Prop :=
  ∀ (ciph : Oracle) (k : Bytes) (i : BitVec 3) (dir : Dir) (tw : Tweak) (r u v : Nat) (src other : Digits) (c : Nat),
    1 ≤ r →
    c = emod (match dir with
        | .encrypt => (num r (rev other) : Int) + (answerValue (ciph k (roundQuery i tw r src)) : Int)
        | .decrypt => (num r (rev other) : Int) - (answerValue (ciph k (roundQuery i tw r src)) : Int))
      (r ^ halfLength i u v) →
    c < r ^ halfLength i u v ∧
      ∃ d : Digits, toDigitString r (halfLength i u v) c = .ok d ∧ d.length = halfLength i u v ∧
        roundF ciph k i dir tw r u v src other = some (rev d)

/-- R172, under its precondition: RNDE i computes the new half from the old A and B, moves it in, counts, sends exactly
one query, and changes nothing else. The round itself is `roundF` (R159). Two clauses are the model's inferences: for
`i = 7` RI, which R29 gives no value then, keeps 7 (log entry 17), and the query's key bytes are the first KLEN of CTX.KO
by R35 (log entry 19). -/
def Obligations.RndeIsOneEncryptRound : Prop :=
  ∀ (s : State) (i : BitVec 3), 1 ≤ s.ctx.radix.toNat → s.call.dir = .encrypt → s.call.ri = i →
    s.call.a.length = halfLength i s.call.u.toNat s.call.v.toNat →
    s.call.b.length = s.call.n.toNat - halfLength i s.call.u.toNat s.call.v.toNat →
      ∃ c : Digits,
        roundF Config.ciph (s.ctx.ko.take s.ctx.klen.bytes) i .encrypt s.call.tw s.ctx.radix.toNat
            s.call.u.toNat s.call.v.toNat s.call.b s.call.a = some c ∧
          c.length = halfLength i s.call.u.toNat s.call.v.toNat ∧ (∀ d ∈ c, d < s.ctx.radix.toNat) ∧
          exec (.rnde i) s = .next { s with
            call := { s.call with a := s.call.b, b := c, ri := if i = 7#3 then i else i + 1#3, rc := s.call.rc + 1#4 },
            sent := s.sent ++ [.query (s.ctx.ko.take s.ctx.klen.bytes)
              (roundQuery i s.call.tw s.ctx.radix.toNat s.call.b)] }

/-- R173, under its precondition: RNDD i with the halves exchanged: the source is A, the half replaced is B, and RI
counts down; and it sends the query that RNDE i sent where RNDE i left this A under the same CTX and TW. Two clauses are
the model's inferences: for `i = 0` RI, which R29 gives no value then, keeps 0 (log entry 17), and the query's key bytes
are the first KLEN of CTX.KO by R35 (log entry 19). -/
def Obligations.RnddIsOneDecryptRound : Prop :=
  ∀ (s : State) (i : BitVec 3), 1 ≤ s.ctx.radix.toNat → s.call.dir = .decrypt → s.call.ri = i →
    s.call.b.length = halfLength i s.call.u.toNat s.call.v.toNat →
    s.call.a.length = s.call.n.toNat - halfLength i s.call.u.toNat s.call.v.toNat →
      ∃ c : Digits,
        roundF Config.ciph (s.ctx.ko.take s.ctx.klen.bytes) i .decrypt s.call.tw s.ctx.radix.toNat
            s.call.u.toNat s.call.v.toNat s.call.a s.call.b = some c ∧
          c.length = halfLength i s.call.u.toNat s.call.v.toNat ∧ (∀ d ∈ c, d < s.ctx.radix.toNat) ∧
          exec (.rndd i) s = .next { s with
            call := { s.call with a := c, b := s.call.a, ri := if i = 0#3 then i else i - 1#3, rc := s.call.rc + 1#4 },
            sent := s.sent ++ [.query (s.ctx.ko.take s.ctx.klen.bytes)
              (roundQuery i s.call.tw s.ctx.radix.toNat s.call.a)] } ∧
          ∀ s' t' : State, exec (.rnde i) s' = .next t' → t'.ctx = s.ctx → t'.call.tw = s.call.tw → t'.call.a = s.call.a →
            t'.sent = s'.sent ++ [.query (s.ctx.ko.take s.ctx.klen.bytes)
              (roundQuery i s.call.tw s.ctx.radix.toNat s.call.a)]

/-- Where a round stops (log entries 12 and 13): with the fault ValueTooLarge exactly when the modulus `r**m` is 0,
which no state of the invariant has; in every other state it runs, its precondition met or not. -/
def Obligations.RoundStopsOnlyOnModulusZero : Prop :=
  ∀ (s : State) (i : BitVec 3),
    ((exec (.rnde i) s = .fault .valueTooLarge ↔ s.ctx.radix.toNat ^ halfLength i s.call.u.toNat s.call.v.toNat = 0) ∧
      (exec (.rndd i) s = .fault .valueTooLarge ↔ s.ctx.radix.toNat ^ halfLength i s.call.u.toNat s.call.v.toNat = 0)) ∧
      (s.ctx.radix.toNat ^ halfLength i s.call.u.toNat s.call.v.toNat ≠ 0 →
        (∃ t, exec (.rnde i) s = .next t) ∧ ∃ t, exec (.rndd i) s = .next t)

/-- R173, R178, round by round over any oracle: RNDD i takes the halves RNDE i made back to the halves it took, with
the same query, and the other way round. -/
def Obligations.RoundsUndoEachOther : Prop :=
  ∀ (ciph : Oracle) (p : CallParams) (i : BitVec 3) (h h' : Halves), 1 ≤ p.r →
    (h.a.length = halfLength i p.u p.v → (∀ d ∈ h.a, d < p.r) → p.round ciph .encrypt i h = some h' →
        p.round ciph .decrypt i h' = some h ∧ p.query .decrypt i h' = p.query .encrypt i h) ∧
      (h.b.length = halfLength i p.u p.v → (∀ d ∈ h.b, d < p.r) → p.round ciph .decrypt i h = some h' →
        p.round ciph .encrypt i h' = some h ∧ p.query .encrypt i h' = p.query .decrypt i h)

/-! ### The host commands -/

/-- R190, success: every field of CTX is new, VALID is set, the response is `RI(0x00, minLen, maxLen)`, no query is
sent, and nothing else changes. -/
def Obligations.InitBuildsTheContext : Prop :=
  ∀ (s : State) (radix : Byte) (key tweak : Bytes) (v : KeyVariant) (T : Tweak),
    keyVariant key.length = .ok v → 2 ≤ radix.toNat → radix.toNat ≤ 36 → expand tweak = .ok T →
      ∃ c : Context,
        c.radix.toNat = radix.toNat ∧ c.minLen.toNat = minLength radix.toNat ∧
          c.maxLen.toNat = maxLength radix.toNat ∧ c.t = T ∧ c.klen = v ∧ c.ko = key.reverse ∧
          exec (.init radix key tweak) s = .next { s with
            valid := true, ctx := c, busy := false, sent := s.sent ++ [.response [0x00#8, c.minLen, c.maxLen]] }

/-- R222, R225: a failing INIT answers the status of its first failing check (key length, radix, tweak length; the
bounds cannot fail, R236), leaves VALID = 0 and BUSY = 0, and touches no call register, no waiting frame and no
action of the host. -/
def Obligations.InitFailsByItsFirstFailingCheck : Prop :=
  ∀ (s : State) (radix : Byte) (key tweak : Bytes) (status : Byte),
    ((key.length ≠ 16 ∧ key.length ≠ 24 ∧ key.length ≠ 32 ∧ status = 0x01#8) ∨
      ((key.length = 16 ∨ key.length = 24 ∨ key.length = 32) ∧
        (((radix.toNat < 2 ∨ 36 < radix.toNat) ∧ status = 0x02#8) ∨
          (2 ≤ radix.toNat ∧ radix.toNat ≤ 36 ∧ tweak.length ≠ 7 ∧ tweak.length ≠ 8 ∧ status = 0x04#8)))) →
      ∃ t, exec (.init radix key tweak) s = .next t ∧ t.sent = s.sent ++ [.response [status]] ∧
        t.valid = false ∧ t.busy = false ∧ t.call = s.call ∧ t.waiting = s.waiting ∧ t.host = s.host

/-- R264: after INIT has answered an error, every transform answers NotConfigured. -/
def Obligations.FailedInitUnconfigures : Prop :=
  ∀ (s t : State) (radix : Byte) (key tweak : Bytes) (e : ErrorKind) (i : Instr) (req : Dir × Bytes × Option Bytes),
    exec (.init radix key tweak) s = .next t → t.sent = s.sent ++ [.response [e.code]] →
      transformRequest i = some req →
        ∃ u, exec i t = .next u ∧ u.sent = t.sent ++ [.response [0x08#8]] ∧ u.valid = false

/-- R170, R191, R192, R195: ENC and DEC whose checks pass load the call registers with the split message and the
context's tweak, and change nothing else; their rounds follow as micro-operations (R183). -/
def Obligations.EncAndDecStartACall : Prop :=
  ∀ (s : State) (sym : Bytes) (x : Digits),
    s.valid = true → s.ctx.minLen.toNat ≤ sym.length → sym.length ≤ s.ctx.maxLen.toNat →
      checkDigits s.ctx.radix.toNat sym = .ok x →
        exec (.enc sym) s = .next { s with
            busy := true,
            call := { dir := .encrypt, n := BitVec.ofNat 8 sym.length, u := BitVec.ofNat 8 ((sym.length + 1) / 2),
                      v := BitVec.ofNat 8 (sym.length - (sym.length + 1) / 2), tw := s.ctx.t,
                      a := x.take ((sym.length + 1) / 2), b := x.drop ((sym.length + 1) / 2), ri := 0#3, rc := 0#4 } } ∧
          exec (.dec sym) s = .next { s with
            busy := true,
            call := { dir := .decrypt, n := BitVec.ofNat 8 sym.length, u := BitVec.ofNat 8 ((sym.length + 1) / 2),
                      v := BitVec.ofNat 8 (sym.length - (sym.length + 1) / 2), tw := s.ctx.t,
                      a := x.take ((sym.length + 1) / 2), b := x.drop ((sym.length + 1) / 2), ri := 7#3, rc := 0#4 } }

/-- R170, R193, R194, R195, R199: the same for ENCT and DECT, with the expanded override in TW; CTX.T keeps its value. -/
def Obligations.EnctAndDectStartACall : Prop :=
  ∀ (s : State) (sym tweak : Bytes) (T : Tweak) (x : Digits),
    s.valid = true → expand tweak = .ok T → s.ctx.minLen.toNat ≤ sym.length → sym.length ≤ s.ctx.maxLen.toNat →
      checkDigits s.ctx.radix.toNat sym = .ok x →
        exec (.enct sym tweak) s = .next { s with
            busy := true,
            call := { dir := .encrypt, n := BitVec.ofNat 8 sym.length, u := BitVec.ofNat 8 ((sym.length + 1) / 2),
                      v := BitVec.ofNat 8 (sym.length - (sym.length + 1) / 2), tw := T,
                      a := x.take ((sym.length + 1) / 2), b := x.drop ((sym.length + 1) / 2), ri := 0#3, rc := 0#4 } } ∧
          exec (.dect sym tweak) s = .next { s with
            busy := true,
            call := { dir := .decrypt, n := BitVec.ofNat 8 sym.length, u := BitVec.ofNat 8 ((sym.length + 1) / 2),
                      v := BitVec.ofNat 8 (sym.length - (sym.length + 1) / 2), tw := T,
                      a := x.take ((sym.length + 1) / 2), b := x.drop ((sym.length + 1) / 2), ri := 7#3, rc := 0#4 } }

/-- R223, R225, R226: a failing transform answers the status of its first failing check, sends no query, and leaves CTX,
the waiting frames and the host's actions as they are; BUSY is 0. The call registers hold free values (log entry 4). -/
def Obligations.TransformFailsByItsFirstFailingCheck : Prop :=
  ∀ (s : State) (i : Instr) (dir : Dir) (sym : Bytes) (tweak : Option Bytes) (status : Byte),
    transformRequest i = some (dir, sym, tweak) →
    ((s.valid = false ∧ status = 0x08#8) ∨
      (s.valid = true ∧
        (((∃ t, tweak = some t ∧ t.length ≠ 7 ∧ t.length ≠ 8) ∧ status = 0x04#8) ∨
          ((∀ t, tweak = some t → t.length = 7 ∨ t.length = 8) ∧
            (((sym.length < s.ctx.minLen.toNat ∨ s.ctx.maxLen.toNat < sym.length) ∧ status = 0x05#8) ∨
              (s.ctx.minLen.toNat ≤ sym.length ∧ sym.length ≤ s.ctx.maxLen.toNat ∧
                (∃ b ∈ sym, ∀ d, symbolDigit b = some d → s.ctx.radix.toNat ≤ d) ∧ status = 0x06#8)))))) →
      ∃ t, exec i s = .next t ∧ t.sent = s.sent ++ [.response [status]] ∧ t.valid = s.valid ∧ t.ctx = s.ctx ∧
        t.busy = false ∧ t.waiting = s.waiting ∧ t.host = s.host

/-- R194: a per-call tweak that is the context's, in either of its forms, makes ENCT do what ENC does and DECT what DEC
does. -/
def Obligations.ContextTweakAsOverrideIsNoChange : Prop :=
  ∀ (s : State) (sym tweak : Bytes), s.valid = true → expand tweak = .ok s.ctx.t →
    exec (.enct sym tweak) s = exec (.enc sym) s ∧ exec (.dect sym tweak) s = exec (.dec sym) s

/-! ### Whole transforms -/

/-- R178, R182: the inverse contract for every legal context, every tweak, every message in range, over any oracle, with
the eight queries of the one direction sent by the other in the opposite order. -/
def Obligations.EncryptAndDecryptAreInverse : Prop :=
  ∀ (ciph : Oracle) (ctx : Context) (tw : Tweak) (x : Digits), ctx.Legal →
    ctx.minLen.toNat ≤ x.length → x.length ≤ ctx.maxLen.toNat → (∀ d ∈ x, d < ctx.radix.toNat) →
      (∃ (y : Digits) (qs : List Block), qs.length = 8 ∧ transform ciph ctx .encrypt tw x = some (y, qs) ∧
          transform ciph ctx .decrypt tw y = some (x, qs.reverse)) ∧
        ∃ (y : Digits) (qs : List Block), qs.length = 8 ∧ transform ciph ctx .decrypt tw x = some (y, qs) ∧
          transform ciph ctx .encrypt tw y = some (x, qs.reverse)

/-- R179: in either direction the output has the length of the input and digits of the radix only, and the transform is
a permutation of the digit strings of each length. -/
def Obligations.TransformPermutesEachLength : Prop :=
  ∀ (ciph : Oracle) (ctx : Context) (dir : Dir) (tw : Tweak) (n : Nat), ctx.Legal →
    ctx.minLen.toNat ≤ n → n ≤ ctx.maxLen.toNat →
      (∀ x : Digits, x.length = n → (∀ d ∈ x, d < ctx.radix.toNat) →
        ∃ (y : Digits) (qs : List Block), transform ciph ctx dir tw x = some (y, qs) ∧ y.length = n ∧
          ∀ d ∈ y, d < ctx.radix.toNat) ∧
      ∀ y : Digits, y.length = n → (∀ d ∈ y, d < ctx.radix.toNat) →
        ∃! x : Digits, (x.length = n ∧ ∀ d ∈ x, d < ctx.radix.toNat) ∧
          ∃ qs : List Block, transform ciph ctx dir tw x = some (y, qs)

/-- R60, R174 to R176, R182, R183, R195: the machine that runs one micro-operation a step agrees with the transform as
one indivisible step. From a state with no call in progress and a transform's frame the oldest waiting one, ten steps
with no reset take that frame, send the eight queries of the schedule in order and then the one response, keep CTX,
and leave waiting what was waiting or was offered meanwhile. The call registers end with free values (log entry 4). -/
def Obligations.MachineRunsTheWholeTransform : Prop :=
  ∀ (s : State) (f : Bytes) (rest : List Bytes) (i : Instr) (dir : Dir) (sym : Bytes) (tweak : Option Bytes)
    (tw : Tweak) (x y : Digits) (qs : List Block),
    s.busy = false → s.waiting = f :: rest → (∀ a ∈ s.host.take 10, a ≠ .reset) →
      decodeFrame f = .ok i → transformRequest i = some (dir, sym, tweak) →
      transformChecks s.valid s.ctx sym tweak = .ok (tw, x) →
      transform Config.ciph s.ctx dir tw x = some (y, qs) →
        ∃ (q : CallRegs) (d : Nat), runSteps 10 s = .next { s with
          call := q, drawn := d, waiting := rest ++ offeredFrames (s.host.take 10), host := s.host.drop 10,
          sent := s.sent ++ qs.map (.query s.ctx.key) ++
            [.response (0x00#8 :: BitVec.ofNat 8 sym.length :: symbols y)] }

/-! ### Every step -/

/-- R26: while VALID = 1 the context changes only by another INIT or by reset. -/
def Obligations.ContextChangesOnlyByInitOrReset : Prop :=
  ∀ s t : State, step s = .next t → s.valid = true → (t.valid ≠ s.valid ∨ t.ctx ≠ s.ctx) →
    s.resetNow = true ∨
      (s.busy = false ∧ ∃ (f : Bytes) (rest : List Bytes) (radix : Byte) (key tweak : Bytes),
        s.landed.waiting = f :: rest ∧ decodeFrame f = .ok (.init radix key tweak))

/-- What was sent stays sent (R60), and a step sends at most one query or one response. The bound is the model's choice,
log entry 9: R183 equally allows one step for a whole command, which would send eight queries and a response. -/
def Obligations.StepSendsAtMostOneThing : Prop :=
  ∀ s t : State, step s = .next t → ∃ es : List Event, t.sent = s.sent ++ es ∧ es.length ≤ 1

/-- R196, R198: every frame the host offers is answered exactly once: in a step with no reset, the responses sent, the
command executing and the frames waiting change by the frames offered in it and by nothing else. -/
def Obligations.EveryCommandIsAnsweredOnce : Prop :=
  ∀ s t : State, s.resetNow = false → step s = .next t →
    responseCount t.sent + (if t.busy then 1 else 0) + t.waiting.length =
      responseCount s.sent + (if s.busy then 1 else 0) + s.waiting.length + (offeredFrames (s.host.take 1)).length

/-- R75, R84, R235, R236: from a well-kept state, a response is `RS` with one of the seven error codes that can occur,
`RI` of the new bounds, or `RM` whose N counts its symbols, each a symbol of the radix. -/
def Obligations.ResponsesHaveTheirFormats : Prop :=
  ∀ (s t : State) (f : Bytes), s.Inv → step s = .next t → t.sent = s.sent ++ [.response f] →
    (∃ e : ErrorKind, f = [e.code] ∧ e ≠ .invalidDomainBounds ∧ e ≠ .valueTooLarge) ∨
      (f = [0x00#8, t.ctx.minLen, t.ctx.maxLen] ∧ t.valid = true) ∨
      ∃ (n : BitVec 8) (sym : Bytes), f = 0x00#8 :: n :: sym ∧ n.toNat = sym.length ∧
        ∀ b ∈ sym, ∃ d, symbolDigit b = some d ∧ d < s.ctx.radix.toNat

/-- The invariant holds after reset (the named values of log entries 1 and 2 play no part: VALID and BUSY are 0). -/
def Obligations.ResetStateIsWellKept : Prop := State.reset.Inv

/-- R22 to R29, R177: every step from a well-kept state, by host, command, round or end of a call, leaves a well-kept
state: while VALID = 1 the context is legal, and in a call the lengths, digits and RC are what the rules say, and so is RI
while RC is below 8. For RC = 8 R29 gives RI no value; that it then keeps 7 or 0 is the model's inference, log entry 17. -/
def Obligations.StepKeepsTheState : Prop :=
  ∀ s t : State, s.Inv → step s = .next t → t.Inv

/-- R181, R235, R265: from a well-kept state no step faults or refuses. -/
def Obligations.WellKeptStatesNeverStop : Prop :=
  ∀ s : State, s.Inv → s.SafeStep

/-- R35, R250 ("no rule reads those registers while VALID = 0"): what the registers of CTX hold while VALID = 0, what the
call registers hold while BUSY = 0, and how many free values were drawn, can never be told from outside: two states
that differ in these only do the same, step after step. -/
def Obligations.UnreadableRegistersAreNeverRead : Prop :=
  ∀ s s' t : State, s.SameView s' → step s = .next t → ∃ t', step s' = .next t' ∧ t.SameView t'
end

