-- ==== Sys2Proof/Laws/Codec.lean ====
section
/-! SUPPORT. What the codec functions of 42_radix_codec.md compute, said once. -/

namespace Sys2Proof.Laws

open Sys2Proof.Machine

/-! ### NUM and the digits of a number -/

@[simp] theorem num_nil (r : Nat) : num r [] = 0 := rfl

@[simp] theorem num_snoc (r : Nat) (x : Digits) (d : Nat) : num r (x ++ [d]) = num r x * r + d := by
  simp [num]

@[simp] theorem fixedDigits_length (r m x : Nat) : (fixedDigits r m x).length = m := by
  induction m generalizing x with
  | zero => rfl
  | succ m ih => simp [fixedDigits, ih]

theorem fixedDigits_lt {r : Nat} (hr : 0 < r) (m x : Nat) : ∀ d ∈ fixedDigits r m x, d < r := by
  induction m generalizing x with
  | zero => simp [fixedDigits]
  | succ m ih =>
    intro d hd
    rcases List.mem_append.1 hd with h | h
    · exact ih _ d h
    · rw [List.mem_singleton.1 h]
      exact Nat.mod_lt _ hr

theorem num_fixedDigits (r m x : Nat) : num r (fixedDigits r m x) = x % r ^ m := by
  induction m generalizing x with
  | zero => simp [fixedDigits, Nat.mod_one]
  | succ m ih =>
    simp only [fixedDigits, num_snoc, ih]
    rw [Nat.pow_succ', Nat.mod_mul, Nat.mul_comm, Nat.add_comm]

theorem num_lt {r : Nat} (x : Digits) (h : ∀ d ∈ x, d < r) : num r x < r ^ x.length := by
  induction x using List.reverseRecOn with
  | nil => simp
  | append_singleton x d ih =>
    have hx := ih fun e he => h e (by simp [he])
    have hd := h d (by simp)
    simp only [num_snoc, List.length_append, List.length_singleton, Nat.pow_succ]
    calc num r x * r + d < num r x * r + r := by omega
      _ = (num r x + 1) * r := by ring
      _ ≤ r ^ x.length * r := Nat.mul_le_mul_right r hx

theorem fixedDigits_num {r : Nat} (x : Digits) (h : ∀ d ∈ x, d < r) : fixedDigits r x.length (num r x) = x := by
  induction x using List.reverseRecOn with
  | nil => rfl
  | append_singleton x d ih =>
    have hx := ih fun e he => h e (by simp [he])
    have hd : d < r := h d (by simp)
    have hdiv : (num r x * r + d) / r = num r x := by
      rw [Nat.add_comm, Nat.add_mul_div_right _ _ (by omega), Nat.div_eq_of_lt hd, Nat.zero_add]
    have hmod : (num r x * r + d) % r = d := by
      rw [Nat.add_comm, Nat.add_mul_mod_self_right, Nat.mod_eq_of_lt hd]
    simp [fixedDigits, hdiv, hmod, hx]

/-! ### STR -/

theorem toDigitString_ok {r m x : Nat} (h : x < r ^ m) : toDigitString r m x = .ok (fixedDigits r m x) := by
  simp [toDigitString, Nat.not_le.2 h]

theorem toDigitString_error {r m x : Nat} (h : r ^ m ≤ x) : toDigitString r m x = .error .valueTooLarge := by
  simp [toDigitString, h]

/-- Everything a rendering can be: the string of exactly `m` digits that spells `x`. -/
theorem toDigitString_cases {r m x : Nat} {d : Digits} (hr : 0 < r) (h : toDigitString r m x = .ok d) :
    x < r ^ m ∧ d.length = m ∧ (∀ e ∈ d, e < r) ∧ num r d = x := by
  unfold toDigitString at h
  split at h
  · cases h
  · next hx =>
    cases h
    have hx := Nat.not_le.1 hx
    exact ⟨hx, fixedDigits_length r m x, fixedDigits_lt hr m x, by rw [num_fixedDigits, Nat.mod_eq_of_lt hx]⟩

theorem naturalDigits_cons {r fuel x : Nat} (h : x ≠ 0) :
    naturalDigits r (fuel + 1) x = naturalDigits r fuel (x / r) ++ [x % r] := by
  simp [naturalDigits, h]

@[simp] theorem naturalDigits_zero (r fuel : Nat) : naturalDigits r fuel 0 = [] := by
  cases fuel <;> simp [naturalDigits]

/-- The loop of R131 is done within `x` turns: any larger bound gives the same digits. -/
theorem naturalDigits_fuel {r : Nat} (hr : 2 ≤ r) : ∀ {fuel x : Nat}, x ≤ fuel →
    naturalDigits r fuel x = naturalDigits r x x := by
  intro fuel
  induction fuel using Nat.strong_induction_on with
  | _ fuel ih =>
    intro x hx
    rcases Nat.eq_zero_or_pos x with rfl | hpos
    · simp
    · obtain ⟨f, rfl⟩ : ∃ f, fuel = f + 1 := ⟨fuel - 1, by omega⟩
      obtain ⟨g, rfl⟩ : ∃ g, x = g + 1 := ⟨x - 1, by omega⟩
      have hdiv : (g + 1) / r < g + 1 := Nat.div_lt_self (by omega) hr
      rw [naturalDigits_cons (by omega), naturalDigits_cons (by omega), ih f (by omega) (by omega)]
      congr 1
      rcases Nat.lt_or_ge g f with h | h
      · rw [ih g (by omega) (by omega)]
      · have : g = f := by omega
        subst this
        rw [ih g (by omega) (by omega)]

theorem naturalDigits_unfold {r x : Nat} (hr : 2 ≤ r) (hx : x ≠ 0) :
    naturalDigits r x x = naturalDigits r (x / r) (x / r) ++ [x % r] := by
  obtain ⟨g, rfl⟩ : ∃ g, x = g + 1 := ⟨x - 1, by omega⟩
  have hdiv : (g + 1) / r < g + 1 := Nat.div_lt_self (by omega) hr
  rw [naturalDigits_cons hx, naturalDigits_fuel hr (by omega)]

theorem num_naturalDigits {r : Nat} (hr : 2 ≤ r) (x : Nat) : num r (naturalDigits r x x) = x := by
  induction x using Nat.strong_induction_on with
  | _ x ih =>
    rcases Nat.eq_zero_or_pos x with rfl | hpos
    · simp
    · rw [naturalDigits_unfold hr (by omega), num_snoc, ih _ (Nat.div_lt_self hpos hr)]
      rw [Nat.mul_comm]
      exact Nat.div_add_mod x r

theorem naturalDigits_lt {r : Nat} (hr : 2 ≤ r) (x : Nat) : ∀ d ∈ naturalDigits r x x, d < r := by
  induction x using Nat.strong_induction_on with
  | _ x ih =>
    rcases Nat.eq_zero_or_pos x with rfl | hpos
    · simp
    · rw [naturalDigits_unfold hr (by omega)]
      intro d hd
      rcases List.mem_append.1 hd with h | h
      · exact ih _ (Nat.div_lt_self hpos hr) d h
      · rw [List.mem_singleton.1 h]
        exact Nat.mod_lt _ (by omega)

/-- The natural representation has no leading zero digit. -/
theorem naturalDigits_head {r : Nat} (hr : 2 ≤ r) (x : Nat) : (naturalDigits r x x).head? ≠ some 0 := by
  induction x using Nat.strong_induction_on with
  | _ x ih =>
    rcases Nat.eq_zero_or_pos x with rfl | hpos
    · simp
    · rw [naturalDigits_unfold hr (by omega)]
      rcases Nat.eq_zero_or_pos (x / r) with h0 | h0
      · have : x % r = x := Nat.mod_eq_of_lt (by
          rcases Nat.lt_or_ge x r with h | h
          · exact h
          · have := Nat.div_pos h (by omega); omega)
        rw [h0, this]
        simp only [naturalDigits_zero, List.nil_append, List.head?_cons, ne_eq, Option.some.injEq]
        omega
      · have hne : naturalDigits r (x / r) (x / r) ≠ [] := by
          intro h
          have := num_naturalDigits hr (x / r)
          rw [h] at this
          simp at this
          omega
        rw [List.head?_append_of_ne_nil _ hne]
        exact ih _ (Nat.div_lt_self hpos hr)

theorem naturalDigits_length_le {r : Nat} (hr : 2 ≤ r) (m x : Nat) :
    (naturalDigits r x x).length ≤ m ↔ x < r ^ m := by
  induction m generalizing x with
  | zero =>
    rcases Nat.eq_zero_or_pos x with rfl | hpos
    · simp
    · rw [naturalDigits_unfold hr (by omega)]
      simp
      omega
  | succ m ih =>
    rcases Nat.eq_zero_or_pos x with rfl | hpos
    · simp only [naturalDigits_zero, List.length_nil, Nat.zero_le, true_iff]
      exact Nat.pow_pos (by omega)
    · rw [naturalDigits_unfold hr (by omega), List.length_append, List.length_singleton,
        Nat.add_le_add_iff_right, ih, Nat.pow_succ, Nat.div_lt_iff_lt_mul (by omega)]

theorem replicate_naturalDigits {r : Nat} (hr : 2 ≤ r) {m x : Nat} (hx : x < r ^ m) :
    List.replicate (m - (naturalDigits r x x).length) 0 ++ naturalDigits r x x = fixedDigits r m x := by
  induction m generalizing x with
  | zero =>
    have : x = 0 := by simpa using hx
    subst this
    simp [fixedDigits]
  | succ m ih =>
    rcases Nat.eq_zero_or_pos x with rfl | hpos
    · have := ih (x := 0) (Nat.pow_pos (by omega))
      simp only [naturalDigits_zero, List.length_nil, Nat.sub_zero, List.append_nil, fixedDigits,
        Nat.zero_div, Nat.zero_mod] at this ⊢
      rw [List.replicate_succ', this]
    · have hdiv : x / r < r ^ m := by
        rw [Nat.div_lt_iff_lt_mul (by omega), ← Nat.pow_succ]; exact hx
      rw [naturalDigits_unfold hr (by omega)]
      simp only [List.length_append, List.length_singleton, Nat.add_sub_add_right, fixedDigits]
      rw [← List.append_assoc, ih hdiv]

/-- `STR_r^m(x)` is the loop of R131: the natural representation, left-padded with zero digits, ValueTooLarge where it
is longer than `m`. -/
theorem toDigitString_loop {r : Nat} (hr : 2 ≤ r) (m x : Nat) :
    toDigitString r m x =
      if m < (naturalDigits r x x).length then .error .valueTooLarge
      else .ok (List.replicate (m - (naturalDigits r x x).length) 0 ++ naturalDigits r x x) := by
  have h := naturalDigits_length_le hr m x
  rcases Nat.lt_or_ge x (r ^ m) with hx | hx
  · rw [toDigitString_ok hx, if_neg (by omega), replicate_naturalDigits hr hx]
  · rw [toDigitString_error hx, if_pos (by omega)]

/-! ### Bytes -/

@[simp] theorem bigEndian_nil : bigEndian [] = 0 := rfl

@[simp] theorem bigEndian_snoc (z : Bytes) (b : Byte) : bigEndian (z ++ [b]) = bigEndian z * 256 + b.toNat := by
  simp [bigEndian]

theorem bigEndian_eq_num (z : Bytes) : bigEndian z = num 256 (z.map BitVec.toNat) := by
  simp [bigEndian, num, List.foldl_map]

theorem bigEndian_lt (z : Bytes) : bigEndian z < 256 ^ z.length := by
  have := num_lt (r := 256) (z.map BitVec.toNat) (by
    intro d hd
    obtain ⟨b, -, rfl⟩ := List.mem_map.1 hd
    exact b.isLt)
  simpa [bigEndian_eq_num] using this

theorem map_toNat_ofNat (x : Digits) (h : ∀ d ∈ x, d < 256) : (x.map (BitVec.ofNat 8)).map BitVec.toNat = x := by
  rw [List.map_map]
  conv_rhs => rw [← List.map_id x]
  refine List.map_congr_left fun d hd => ?_
  simp [Nat.mod_eq_of_lt (h d hd)]

theorem toFixedBytes_map (x : Nat) : (toFixedBytes x).map BitVec.toNat = naturalDigits 256 x x :=
  map_toNat_ofNat _ (naturalDigits_lt (by omega) x)

theorem bigEndian_toFixedBytes (x : Nat) : bigEndian (toFixedBytes x) = x := by
  rw [bigEndian_eq_num, toFixedBytes_map, num_naturalDigits (by omega)]

theorem toFixedBytes_length_le (m x : Nat) : (toFixedBytes x).length ≤ m ↔ x < 256 ^ m := by
  rw [← naturalDigits_length_le (by omega) m x, ← toFixedBytes_map x, List.length_map]

theorem bigEndian_zeros (k : Nat) (z : Bytes) : bigEndian (List.replicate k 0#8 ++ z) = bigEndian z := by
  induction k with
  | zero => simp
  | succ k ih =>
    rw [List.replicate_succ, List.cons_append]
    simpa [bigEndian] using ih

/-! ### Blocks -/

@[simp] theorem revBlock_get (z : Block) (j : Nat) (hj : j < 16) : (revBlock z)[j] = z[15 - j] := by
  simp [revBlock]

@[simp] theorem revBlock_revBlock (z : Block) : revBlock (revBlock z) = z := by
  ext j hj
  simp only [revBlock_get _ j hj, revBlock_get _ (15 - j) (by omega)]
  congr 2
  omega

theorem revBlock_toList (z : Block) : (revBlock z).toList = z.toList.reverse := by
  apply List.ext_getElem
  · simp
  · intro j h1 h2
    have hj : j < 16 := by simpa using h1
    simp

/-! ### The Euclidean remainder -/

theorem emod_lt (a : Int) {q : Nat} (hq : 0 < q) : emod a q < q := by
  have h0 := Int.emod_nonneg a (b := (q : Int)) (by omega)
  have h1 := Int.emod_lt_of_pos a (b := (q : Int)) (by omega)
  simp only [emod]
  omega

theorem emod_cast (a : Int) {q : Nat} (hq : 0 < q) : (emod a q : Int) = a % (q : Int) := by
  have h0 := Int.emod_nonneg a (b := (q : Int)) (by omega)
  simp only [emod]
  omega

theorem emod_of_lt {x q : Nat} (h : x < q) : emod (x : Int) q = x := by
  have := emod_cast (x : Int) (q := q) (by omega)
  rw [Int.emod_eq_of_lt (by omega) (by omega)] at this
  omega

theorem emod_add_sub (a y : Int) {q : Nat} (hq : 0 < q) : emod ((emod (a + y) q : Int) - y) q = emod a q := by
  have h1 := emod_cast (a + y) hq
  have : ((emod ((emod (a + y) q : Int) - y) q : Nat) : Int) = (emod a q : Nat) := by
    rw [emod_cast _ hq, h1, emod_cast _ hq, Int.emod_sub_emod]
    ring_nf
  exact_mod_cast this

theorem emod_sub_add (a y : Int) {q : Nat} (hq : 0 < q) : emod ((emod (a - y) q : Int) + y) q = emod a q := by
  have := emod_add_sub a (-y) hq
  simpa [Int.sub_eq_add_neg] using this

end Sys2Proof.Laws
end

