-- ==== Sys2Proof/Laws/Decode.lean ====
section
/-! SUPPORT. The count byte of the encoder and the length it counts. -/

namespace Sys2Proof.Laws

theorem countByte_toNat {s : Bytes} (h : s.length < 256) : (countByte s).toNat = s.length := by
  simp only [countByte, BitVec.toNat_ofNat]
  omega

theorem countByte_eq {s : Bytes} {b : Byte} (h : s.length = b.toNat) : countByte s = b := by
  simp [countByte, h]

end Sys2Proof.Laws
end

