-- ==== Sys2Proof/Laws/Validator.lean ====
section
/-! SUPPORT. What the operand functions and the checks of 40_domain_validator.md can answer, said once. -/

namespace Sys2Proof.Laws

open Sys2Proof.Machine

/-! ### Powers -/

/-- The search of R100 finds the least exponent, where one lies within its turns. -/
theorem leastPower_spec {r bound : Nat} (turns start : Nat) (h : ∃ m, start ≤ m ∧ m ≤ start + turns ∧ bound ≤ r ^ m) :
    bound ≤ r ^ leastPower r bound turns start ∧ start ≤ leastPower r bound turns start ∧
      ∀ m, start ≤ m → bound ≤ r ^ m → leastPower r bound turns start ≤ m := by
  induction turns generalizing start with
  | zero =>
    obtain ⟨m, h1, h2, h3⟩ := h
    obtain rfl : m = start := by omega
    exact ⟨h3, Nat.le_refl _, fun m hm _ => hm⟩
  | succ turns ih =>
    unfold leastPower
    split
    · next hb => exact ⟨hb, Nat.le_refl _, fun m hm _ => hm⟩
    · next hb =>
      have hne : ∀ m, start ≤ m → bound ≤ r ^ m → start + 1 ≤ m := fun m hm hbm => by
        rcases Nat.eq_or_lt_of_le hm with rfl | h
        · exact absurd hbm hb
        · exact h
      obtain ⟨m, h1, h2, h3⟩ := h
      obtain ⟨i1, i2, i3⟩ := ih (start + 1) ⟨m, hne m h1 h3, by omega, h3⟩
      exact ⟨i1, by omega, fun m hm hbm => i3 m (hne m hm hbm) hbm⟩

/-- The search of R101 finds the greatest exponent up to its top. -/
theorem greatestPower_spec {r bound : Nat} (hb : 1 ≤ bound) (top : Nat) :
    r ^ greatestPower r bound top ≤ bound ∧ ∀ k, k ≤ top → r ^ k ≤ bound → k ≤ greatestPower r bound top := by
  induction top with
  | zero => exact ⟨by simpa [greatestPower] using hb, fun k hk _ => hk⟩
  | succ top ih =>
    unfold greatestPower
    split
    · next h => exact ⟨h, fun k hk _ => hk⟩
    · next h =>
      refine ⟨ih.1, fun k hk hkb => ih.2 k ?_ hkb⟩
      rcases Nat.eq_or_lt_of_le hk with rfl | h'
      · exact absurd hkb h
      · omega

/-! ### Operands -/

/-- Everything `expand` can answer (R120). -/
theorem expand_cases (t : Bytes) :
    (∃ T : Tweak, expand t = .ok T ∧ (t.length = 7 ∨ t.length = 8)) ∨
      (expand t = .error .invalidTweakLength ∧ t.length ≠ 7 ∧ t.length ≠ 8) := by
  match t with
  | [] | [_] | [_, _] | [_, _, _] | [_, _, _, _] | [_, _, _, _, _] | [_, _, _, _, _, _] =>
    exact .inr ⟨rfl, by simp, by simp⟩
  | [_, _, _, _, _, _, _] => exact .inl ⟨_, rfl, .inl rfl⟩
  | [_, _, _, _, _, _, _, _] => exact .inl ⟨_, rfl, .inr rfl⟩
  | _ :: _ :: _ :: _ :: _ :: _ :: _ :: _ :: _ :: _ =>
    refine .inr ⟨rfl, ?_, ?_⟩ <;> simp

theorem digitSymbol_inverse {d : Nat} (h : d < 36) : symbolDigit (digitSymbol d) = some d := by
  unfold digitSymbol symbolDigit
  split
  · next hd =>
    have : (BitVec.ofNat 8 (48 + d)).toNat = 48 + d := by simp; omega
    rw [this, if_pos (by omega)]
    congr 1
    omega
  · next hd =>
    have : (BitVec.ofNat 8 (97 + (d - 10))).toNat = 97 + (d - 10) := by simp; omega
    rw [this, if_neg (by omega), if_pos (by omega)]
    congr 1
    omega

theorem symbolDigit_lt {b : Byte} {d : Nat} (h : symbolDigit b = some d) : d < 36 := by
  unfold symbolDigit at h
  split at h
  · cases h; omega
  · split at h
    · cases h; omega
    · cases h

/-! ### The checks -/

/-- Everything `keyVariant` can answer (R104). -/
theorem keyVariant_cases (n : Nat) :
    (∃ v, keyVariant n = .ok v ∧ v.bytes = n) ∨
      (keyVariant n = .error .invalidKeyLength ∧ n ≠ 16 ∧ n ≠ 24 ∧ n ≠ 32) := by
  unfold keyVariant
  split
  · exact .inl ⟨_, rfl, by simp [KeyVariant.bytes, *]⟩
  · split
    · exact .inl ⟨_, rfl, by simp [KeyVariant.bytes, *]⟩
    · split
      · exact .inl ⟨_, rfl, by simp [KeyVariant.bytes, *]⟩
      · exact .inr ⟨rfl, by assumption, by assumption, by assumption⟩

/-- Everything `checkRadix` can answer (R105). -/
theorem checkRadix_cases (r : Nat) :
    (checkRadix r = .ok () ∧ 2 ≤ r ∧ r ≤ 36) ∨ (checkRadix r = .error .invalidRadix ∧ (r < 2 ∨ 36 < r)) := by
  unfold checkRadix
  split
  · next h => exact .inr ⟨rfl, h⟩
  · next h =>
    simp only [Config.radixMin, Config.radixMax] at h
    exact .inl ⟨rfl, by omega, by omega⟩

theorem lengthBounds_legal {r : Nat} (h1 : 2 ≤ r) (h2 : r ≤ 36) :
    lengthBounds r = .ok (minLength r, maxLength r) := by
  interval_cases r <;> decide

/-- The bounds of every legal radix are small, and every half has at least two digits (R103). -/
theorem length_bounds {r : Nat} (h1 : 2 ≤ r) (h2 : r ≤ 36) :
    4 ≤ minLength r ∧ minLength r ≤ 20 ∧ 36 ≤ maxLength r ∧ maxLength r ≤ 192 := by
  interval_cases r <;> decide

/-- Everything `checkMessageLength` can answer (R106). -/
theorem checkMessageLength_cases (n mn mx : Nat) :
    (checkMessageLength n mn mx = .ok () ∧ mn ≤ n ∧ n ≤ mx) ∨
      (checkMessageLength n mn mx = .error .invalidMessageLength ∧ (n < mn ∨ mx < n)) := by
  unfold checkMessageLength
  split
  · next h => exact .inr ⟨rfl, h⟩
  · next h => exact .inl ⟨rfl, by omega, by omega⟩

theorem radixDigit_some {r : Nat} {b : Byte} {d : Nat} :
    radixDigit r b = some d ↔ symbolDigit b = some d ∧ d < r := by
  simp [radixDigit, Option.filter_eq_some_iff]

/-- The only error of `checkDigits` (R107). -/
theorem checkDigits_error {r : Nat} {sym : Bytes} {e : ErrorKind} (h : checkDigits r sym = .error e) :
    e = .invalidDigitForRadix := by
  cases sym with
  | nil => cases h
  | cons b sym =>
    unfold checkDigits at h
    split at h
    · cases h
    · exact (Except.error.inj h).symm

/-- A message that passes has the length of its symbols, and every digit is below the radix (R107). -/
theorem checkDigits_ok {r : Nat} {sym : Bytes} {x : Digits} (h : checkDigits r sym = .ok x) :
    x.length = sym.length ∧ ∀ d ∈ x, d < r := by
  induction sym generalizing x with
  | nil => cases h; simp
  | cons b sym ih =>
    unfold checkDigits at h
    split at h
    · next d y hd hy =>
      cases h
      obtain ⟨i1, i2⟩ := ih hy
      refine ⟨by simp [i1], fun e he => ?_⟩
      rcases List.mem_cons.1 he with rfl | he
      · exact (radixDigit_some.1 hd).2
      · exact i2 e he
    · cases h

/-- Everything the checks of INIT can answer: they pass, or the first of them that fails gives the error (R222). -/
theorem initChecks_cases (radix : Nat) (key tweak : Bytes) :
    (∃ v t, keyVariant key.length = .ok v ∧ v.bytes = key.length ∧ 2 ≤ radix ∧ radix ≤ 36 ∧ expand tweak = .ok t ∧
        initChecks radix key tweak = .ok (v, (minLength radix, maxLength radix), t)) ∨
      (key.length ≠ 16 ∧ key.length ≠ 24 ∧ key.length ≠ 32 ∧ initChecks radix key tweak = .error .invalidKeyLength) ∨
      ((key.length = 16 ∨ key.length = 24 ∨ key.length = 32) ∧ (radix < 2 ∨ 36 < radix) ∧
        initChecks radix key tweak = .error .invalidRadix) ∨
      ((key.length = 16 ∨ key.length = 24 ∨ key.length = 32) ∧ 2 ≤ radix ∧ radix ≤ 36 ∧
        tweak.length ≠ 7 ∧ tweak.length ≠ 8 ∧ initChecks radix key tweak = .error .invalidTweakLength) := by
  unfold initChecks
  rcases keyVariant_cases key.length with ⟨v, hv, hb⟩ | ⟨hv, h⟩
  · have hk : key.length = 16 ∨ key.length = 24 ∨ key.length = 32 := by
      cases v <;> simp [KeyVariant.bytes] at hb <;> omega
    rcases checkRadix_cases radix with ⟨hr, h1, h2⟩ | ⟨hr, h1⟩
    · rcases expand_cases tweak with ⟨t, ht, -⟩ | ⟨ht, h3, h4⟩
      · refine .inl ⟨v, t, hv, hb, h1, h2, ht, ?_⟩
        simp [hv, hr, lengthBounds_legal h1 h2, ht, bind, Except.bind, pure, Except.pure]
      · refine .inr (.inr (.inr ⟨hk, h1, h2, h3, h4, ?_⟩))
        simp [hv, hr, lengthBounds_legal h1 h2, ht, bind, Except.bind]
    · refine .inr (.inr (.inl ⟨hk, h1, ?_⟩))
      simp [hv, hr, bind, Except.bind]
  · refine .inr (.inl ⟨h.1, h.2.1, h.2.2, ?_⟩)
    simp [hv, bind, Except.bind]

/-- Everything the checks of a transform can answer: they pass, or the first of them that fails gives the error
(R223). -/
theorem transformChecks_cases (valid : Bool) (ctx : Context) (sym : Bytes) (tweak : Option Bytes) :
    (∃ tw x, valid = true ∧ tweakInForce ctx tweak = .ok tw ∧ ctx.minLen.toNat ≤ sym.length ∧
        sym.length ≤ ctx.maxLen.toNat ∧ checkDigits ctx.radix.toNat sym = .ok x ∧
        transformChecks valid ctx sym tweak = .ok (tw, x)) ∨
      (valid = false ∧ transformChecks valid ctx sym tweak = .error .notConfigured) ∨
      (valid = true ∧ tweakInForce ctx tweak = .error .invalidTweakLength ∧
        transformChecks valid ctx sym tweak = .error .invalidTweakLength) ∨
      (∃ tw, valid = true ∧ tweakInForce ctx tweak = .ok tw ∧
        (sym.length < ctx.minLen.toNat ∨ ctx.maxLen.toNat < sym.length) ∧
        transformChecks valid ctx sym tweak = .error .invalidMessageLength) ∨
      (∃ tw, valid = true ∧ tweakInForce ctx tweak = .ok tw ∧ ctx.minLen.toNat ≤ sym.length ∧
        sym.length ≤ ctx.maxLen.toNat ∧ checkDigits ctx.radix.toNat sym = .error .invalidDigitForRadix ∧
        transformChecks valid ctx sym tweak = .error .invalidDigitForRadix) := by
  unfold transformChecks
  cases valid with
  | false => exact .inr (.inl ⟨rfl, rfl⟩)
  | true =>
    have htw : (∃ tw, tweakInForce ctx tweak = .ok tw) ∨ tweakInForce ctx tweak = .error .invalidTweakLength := by
      cases tweak with
      | none => exact .inl ⟨_, rfl⟩
      | some t => exact (expand_cases t).imp (fun ⟨T, h, _⟩ => ⟨T, h⟩) (fun h => h.1)
    rcases htw with ⟨tw, htw⟩ | htw
    · rcases checkMessageLength_cases sym.length ctx.minLen.toNat ctx.maxLen.toNat with ⟨hn, h1, h2⟩ | ⟨hn, h1⟩
      · cases hd : checkDigits ctx.radix.toNat sym with
        | ok x =>
          refine .inl ⟨tw, x, rfl, htw, h1, h2, rfl, ?_⟩
          simp [htw, hn, bind, Except.bind, pure, Except.pure]
        | error e =>
          have he := checkDigits_error hd
          subst he
          refine .inr (.inr (.inr (.inr ⟨tw, rfl, htw, h1, h2, rfl, ?_⟩)))
          simp [htw, hn, bind, Except.bind]
      · refine .inr (.inr (.inr (.inl ⟨tw, rfl, htw, h1, ?_⟩)))
        simp [htw, hn, bind, Except.bind]
    · refine .inr (.inr (.inl ⟨rfl, htw, ?_⟩))
      simp [htw, bind, Except.bind]

end Sys2Proof.Laws
end

