-- ==== Sys2Proof/Laws/Round.lean ====
section
/-! SUPPORT. What one round computes (43_round_function.md), said once. -/

namespace Sys2Proof.Laws

open Sys2Proof.Machine

/-- `renderHalf` is R157 and R158 as they stand: the value reduced by `emod`, rendered by `STR_r^m`, reversed; and it
answers none exactly where `STR_r^m` raises. -/
theorem renderHalf_eq (r m : Nat) (x : Int) :
    renderHalf r m x = (toDigitString r m (emod x (r ^ m))).toOption.map rev := by
  unfold renderHalf
  split
  · next h => simp [toDigitString, h, Except.toOption]
  · next h => rw [toDigitString_ok (emod_lt x (Nat.pos_of_ne_zero h))]; rfl

/-- Everything a fold can answer when the modulus is not 0. -/
theorem renderHalf_pos {r : Nat} (hr : 0 < r) (m : Nat) (x : Int) :
    renderHalf r m x = some (rev (fixedDigits r m (emod x (r ^ m)))) := by
  unfold renderHalf
  rw [if_neg (Nat.pos_iff_ne_zero.1 (Nat.pow_pos hr))]

/-- Everything a fold can answer: a half of `m` digits below `r`, whose reversed value is the reduced sum. -/
theorem renderHalf_cases {r m : Nat} {x : Int} {c : Digits} (hr : 0 < r) (h : renderHalf r m x = some c) :
    c.length = m ∧ (∀ d ∈ c, d < r) ∧ num r (rev c) = emod x (r ^ m) := by
  rw [renderHalf_pos hr] at h
  cases h
  refine ⟨by simp [rev], fun d hd => fixedDigits_lt hr _ _ d (by simpa [rev] using hd), ?_⟩
  rw [rev, rev, List.reverse_reverse, num_fixedDigits, Nat.mod_eq_of_lt (emod_lt x (Nat.pow_pos hr))]

theorem roundF_cases {ciph : Oracle} {k : Bytes} {i : BitVec 3} {dir : Dir} {tw : Tweak} {r u v : Nat}
    {src other c : Digits} (hr : 0 < r) (h : roundF ciph k i dir tw r u v src other = some c) :
    c.length = halfLength i u v ∧ (∀ d ∈ c, d < r) ∧
      num r (rev c) = emod (foldSum dir (num r (rev other)) (answerValue (ciph k (roundQuery i tw r src))))
        (r ^ halfLength i u v) := by
  obtain ⟨h1, h2, h3⟩ := renderHalf_cases hr h
  exact ⟨h1, h2, by exact_mod_cast h3⟩

/-- A round answers a half whenever the radix is not 0. -/
theorem roundF_some {ciph : Oracle} {k : Bytes} {i : BitVec 3} {dir : Dir} {tw : Tweak} {r u v : Nat}
    {src other : Digits} (hr : 0 < r) : ∃ c, roundF ciph k i dir tw r u v src other = some c :=
  ⟨_, renderHalf_pos hr _ _⟩

theorem roundBlock_get {i : BitVec 3} {w : TweakHalf} {r : Nat} {src : Digits} {j : Nat} (hj : j < 16) :
    (roundBlock i w r src)[j] =
      if j < 16 - (toFixedBytes (num r (rev src))).length then headByte w i j
      else (toFixedBytes (num r (rev src))).getD (j - (16 - (toFixedBytes (num r (rev src))).length)) 0#8 := by
  simp [roundBlock]

/-- The answer's value is below 2**128 (R156). -/
theorem answerValue_lt (rr : Block) : answerValue rr < 2 ^ 128 := by
  have := bigEndian_lt (revBlock rr).toList
  rw [Vector.length_toList] at this
  exact this

end Sys2Proof.Laws
end

