-- ==== Sys2Proof/Laws/State.lean ====
section
/-! SUPPORT. One lemma per field per update of the state, true by rfl. -/

namespace Sys2Proof.Laws

open Sys2Proof.Machine

/-! ### accept -/

@[simp] theorem accept_valid (rest : List Bytes) (s : State) : (s.accept rest).valid = s.valid := rfl
@[simp] theorem accept_ctx (rest : List Bytes) (s : State) : (s.accept rest).ctx = s.ctx := rfl
@[simp] theorem accept_busy (rest : List Bytes) (s : State) : (s.accept rest).busy = true := rfl
@[simp] theorem accept_call (rest : List Bytes) (s : State) : (s.accept rest).call = s.call := rfl
@[simp] theorem accept_waiting (rest : List Bytes) (s : State) : (s.accept rest).waiting = rest := rfl
@[simp] theorem accept_sent (rest : List Bytes) (s : State) : (s.accept rest).sent = s.sent := rfl
@[simp] theorem accept_host (rest : List Bytes) (s : State) : (s.accept rest).host = s.host := rfl
@[simp] theorem accept_drawn (rest : List Bytes) (s : State) : (s.accept rest).drawn = s.drawn := rfl

/-! ### answer -/

@[simp] theorem answer_valid (f : Bytes) (s : State) : (s.answer f).valid = s.valid := rfl
@[simp] theorem answer_ctx (f : Bytes) (s : State) : (s.answer f).ctx = s.ctx := rfl
@[simp] theorem answer_busy (f : Bytes) (s : State) : (s.answer f).busy = false := rfl
@[simp] theorem answer_call (f : Bytes) (s : State) : (s.answer f).call = s.call := rfl
@[simp] theorem answer_waiting (f : Bytes) (s : State) : (s.answer f).waiting = s.waiting := rfl
@[simp] theorem answer_sent (f : Bytes) (s : State) : (s.answer f).sent = s.sent ++ [.response f] := rfl
@[simp] theorem answer_host (f : Bytes) (s : State) : (s.answer f).host = s.host := rfl
@[simp] theorem answer_drawn (f : Bytes) (s : State) : (s.answer f).drawn = s.drawn := rfl

/-! ### invalidate -/

@[simp] theorem invalidate_valid (s : State) : (s.invalidate).valid = false := rfl
@[simp] theorem invalidate_ctx (s : State) : (s.invalidate).ctx = Config.freeContext s.drawn := rfl
@[simp] theorem invalidate_busy (s : State) : (s.invalidate).busy = s.busy := rfl
@[simp] theorem invalidate_call (s : State) : (s.invalidate).call = s.call := rfl
@[simp] theorem invalidate_waiting (s : State) : (s.invalidate).waiting = s.waiting := rfl
@[simp] theorem invalidate_sent (s : State) : (s.invalidate).sent = s.sent := rfl
@[simp] theorem invalidate_host (s : State) : (s.invalidate).host = s.host := rfl
@[simp] theorem invalidate_drawn (s : State) : (s.invalidate).drawn = s.drawn + 1 := rfl

/-! ### discardCall -/

@[simp] theorem discardCall_valid (s : State) : (s.discardCall).valid = s.valid := rfl
@[simp] theorem discardCall_ctx (s : State) : (s.discardCall).ctx = s.ctx := rfl
@[simp] theorem discardCall_busy (s : State) : (s.discardCall).busy = s.busy := rfl
@[simp] theorem discardCall_call (s : State) : (s.discardCall).call = Config.freeCall s.drawn := rfl
@[simp] theorem discardCall_waiting (s : State) : (s.discardCall).waiting = s.waiting := rfl
@[simp] theorem discardCall_sent (s : State) : (s.discardCall).sent = s.sent := rfl
@[simp] theorem discardCall_host (s : State) : (s.discardCall).host = s.host := rfl
@[simp] theorem discardCall_drawn (s : State) : (s.discardCall).drawn = s.drawn + 1 := rfl

/-! ### configure -/

@[simp] theorem configure_valid (c : Context) (s : State) : (s.configure c).valid = true := rfl
@[simp] theorem configure_ctx (c : Context) (s : State) : (s.configure c).ctx = c := rfl
@[simp] theorem configure_busy (c : Context) (s : State) : (s.configure c).busy = s.busy := rfl
@[simp] theorem configure_call (c : Context) (s : State) : (s.configure c).call = s.call := rfl
@[simp] theorem configure_waiting (c : Context) (s : State) : (s.configure c).waiting = s.waiting := rfl
@[simp] theorem configure_sent (c : Context) (s : State) : (s.configure c).sent = s.sent := rfl
@[simp] theorem configure_host (c : Context) (s : State) : (s.configure c).host = s.host := rfl
@[simp] theorem configure_drawn (c : Context) (s : State) : (s.configure c).drawn = s.drawn := rfl

/-! ### offer -/

@[simp] theorem offer_valid (f : Bytes) (s : State) : (s.offer f).valid = s.valid := rfl
@[simp] theorem offer_ctx (f : Bytes) (s : State) : (s.offer f).ctx = s.ctx := rfl
@[simp] theorem offer_busy (f : Bytes) (s : State) : (s.offer f).busy = s.busy := rfl
@[simp] theorem offer_call (f : Bytes) (s : State) : (s.offer f).call = s.call := rfl
@[simp] theorem offer_waiting (f : Bytes) (s : State) : (s.offer f).waiting = s.waiting ++ [f] := rfl
@[simp] theorem offer_sent (f : Bytes) (s : State) : (s.offer f).sent = s.sent := rfl
@[simp] theorem offer_host (f : Bytes) (s : State) : (s.offer f).host = s.host := rfl
@[simp] theorem offer_drawn (f : Bytes) (s : State) : (s.offer f).drawn = s.drawn := rfl

/-! ### assertReset -/

@[simp] theorem assertReset_valid (s : State) : (s.assertReset).valid = false := rfl
@[simp] theorem assertReset_ctx (s : State) : (s.assertReset).ctx = Context.reset := rfl
@[simp] theorem assertReset_busy (s : State) : (s.assertReset).busy = false := rfl
@[simp] theorem assertReset_call (s : State) : (s.assertReset).call = CallRegs.reset := rfl
@[simp] theorem assertReset_waiting (s : State) : (s.assertReset).waiting = s.waiting := rfl
@[simp] theorem assertReset_sent (s : State) : (s.assertReset).sent = s.sent := rfl
@[simp] theorem assertReset_host (s : State) : (s.assertReset).host = s.host := rfl
@[simp] theorem assertReset_drawn (s : State) : (s.assertReset).drawn = s.drawn := rfl

/-! ### finishTransform -/

@[simp] theorem finishTransform_valid (s : State) : (s.finishTransform).valid = s.valid := rfl
@[simp] theorem finishTransform_ctx (s : State) : (s.finishTransform).ctx = s.ctx := rfl
@[simp] theorem finishTransform_busy (s : State) : (s.finishTransform).busy = false := rfl
@[simp] theorem finishTransform_call (s : State) : (s.finishTransform).call = Config.freeCall s.drawn := rfl
@[simp] theorem finishTransform_waiting (s : State) : (s.finishTransform).waiting = s.waiting := rfl
@[simp] theorem finishTransform_sent (s : State) : (s.finishTransform).sent = s.sent ++ [.response (responseRM s.call.n (symbols (s.call.a ++ s.call.b)))] := rfl
@[simp] theorem finishTransform_host (s : State) : (s.finishTransform).host = s.host := rfl
@[simp] theorem finishTransform_drawn (s : State) : (s.finishTransform).drawn = s.drawn + 1 := rfl

/-! ### raise: the rows of R225's table -/

theorem raise_illegalFrame (e : ErrorKind) (s : State) : s.raise .illegalFrame e = s.answer (responseRS e) := rfl
theorem raise_init (e : ErrorKind) (s : State) : s.raise .init e = s.invalidate.answer (responseRS e) := rfl
theorem raise_transform (e : ErrorKind) (s : State) : s.raise .transform e = s.discardCall.answer (responseRS e) := rfl

@[simp] theorem raise_busy (w : Failing) (e : ErrorKind) (s : State) : (s.raise w e).busy = false := by
  cases w <;> rfl
@[simp] theorem raise_sent (w : Failing) (e : ErrorKind) (s : State) : (s.raise w e).sent = s.sent ++ [.response (responseRS e)] := by
  cases w <;> rfl
@[simp] theorem raise_waiting (w : Failing) (e : ErrorKind) (s : State) : (s.raise w e).waiting = s.waiting := by
  cases w <;> rfl
@[simp] theorem raise_host (w : Failing) (e : ErrorKind) (s : State) : (s.raise w e).host = s.host := by
  cases w <;> rfl

/-! ### roundMove -/

@[simp] theorem roundMove_encrypt_dir (i : BitVec 3) (c : Digits) (q : CallRegs) :
    (q.roundMove .encrypt i c).dir = q.dir := rfl
@[simp] theorem roundMove_encrypt_n (i : BitVec 3) (c : Digits) (q : CallRegs) :
    (q.roundMove .encrypt i c).n = q.n := rfl
@[simp] theorem roundMove_encrypt_u (i : BitVec 3) (c : Digits) (q : CallRegs) :
    (q.roundMove .encrypt i c).u = q.u := rfl
@[simp] theorem roundMove_encrypt_v (i : BitVec 3) (c : Digits) (q : CallRegs) :
    (q.roundMove .encrypt i c).v = q.v := rfl
@[simp] theorem roundMove_encrypt_tw (i : BitVec 3) (c : Digits) (q : CallRegs) :
    (q.roundMove .encrypt i c).tw = q.tw := rfl
@[simp] theorem roundMove_encrypt_a (i : BitVec 3) (c : Digits) (q : CallRegs) :
    (q.roundMove .encrypt i c).a = q.b := rfl
@[simp] theorem roundMove_encrypt_b (i : BitVec 3) (c : Digits) (q : CallRegs) :
    (q.roundMove .encrypt i c).b = c := rfl
@[simp] theorem roundMove_encrypt_ri (i : BitVec 3) (c : Digits) (q : CallRegs) :
    (q.roundMove .encrypt i c).ri = nextRound .encrypt i q.ri := rfl
@[simp] theorem roundMove_encrypt_rc (i : BitVec 3) (c : Digits) (q : CallRegs) :
    (q.roundMove .encrypt i c).rc = q.rc + 1#4 := rfl
@[simp] theorem roundMove_decrypt_dir (i : BitVec 3) (c : Digits) (q : CallRegs) :
    (q.roundMove .decrypt i c).dir = q.dir := rfl
@[simp] theorem roundMove_decrypt_n (i : BitVec 3) (c : Digits) (q : CallRegs) :
    (q.roundMove .decrypt i c).n = q.n := rfl
@[simp] theorem roundMove_decrypt_u (i : BitVec 3) (c : Digits) (q : CallRegs) :
    (q.roundMove .decrypt i c).u = q.u := rfl
@[simp] theorem roundMove_decrypt_v (i : BitVec 3) (c : Digits) (q : CallRegs) :
    (q.roundMove .decrypt i c).v = q.v := rfl
@[simp] theorem roundMove_decrypt_tw (i : BitVec 3) (c : Digits) (q : CallRegs) :
    (q.roundMove .decrypt i c).tw = q.tw := rfl
@[simp] theorem roundMove_decrypt_a (i : BitVec 3) (c : Digits) (q : CallRegs) :
    (q.roundMove .decrypt i c).a = c := rfl
@[simp] theorem roundMove_decrypt_b (i : BitVec 3) (c : Digits) (q : CallRegs) :
    (q.roundMove .decrypt i c).b = q.a := rfl
@[simp] theorem roundMove_decrypt_ri (i : BitVec 3) (c : Digits) (q : CallRegs) :
    (q.roundMove .decrypt i c).ri = nextRound .decrypt i q.ri := rfl
@[simp] theorem roundMove_decrypt_rc (i : BitVec 3) (c : Digits) (q : CallRegs) :
    (q.roundMove .decrypt i c).rc = q.rc + 1#4 := rfl

/-! ### splitCall -/

@[simp] theorem splitCall_dir (dir : Dir) (tw : Tweak) (x : Digits) : (splitCall dir tw x).dir = dir := rfl
@[simp] theorem splitCall_n (dir : Dir) (tw : Tweak) (x : Digits) : (splitCall dir tw x).n = BitVec.ofNat 8 x.length := rfl
@[simp] theorem splitCall_u (dir : Dir) (tw : Tweak) (x : Digits) : (splitCall dir tw x).u = BitVec.ofNat 8 (halfUp x.length) := rfl
@[simp] theorem splitCall_v (dir : Dir) (tw : Tweak) (x : Digits) : (splitCall dir tw x).v = BitVec.ofNat 8 (x.length - halfUp x.length) := rfl
@[simp] theorem splitCall_tw (dir : Dir) (tw : Tweak) (x : Digits) : (splitCall dir tw x).tw = tw := rfl
@[simp] theorem splitCall_a (dir : Dir) (tw : Tweak) (x : Digits) : (splitCall dir tw x).a = x.take (halfUp x.length) := rfl
@[simp] theorem splitCall_b (dir : Dir) (tw : Tweak) (x : Digits) : (splitCall dir tw x).b = x.drop (halfUp x.length) := rfl
@[simp] theorem splitCall_ri (dir : Dir) (tw : Tweak) (x : Digits) : (splitCall dir tw x).ri = firstRound dir := rfl
@[simp] theorem splitCall_rc (dir : Dir) (tw : Tweak) (x : Digits) : (splitCall dir tw x).rc = 0#4 := rfl

/-! ### newContext -/

@[simp] theorem newContext_radix (r : Nat) (bs : Nat × Nat) (t : Tweak) (v : KeyVariant) (key : Bytes) :
    (newContext r bs t v key).radix = BitVec.ofNat 6 r := rfl
@[simp] theorem newContext_minLen (r : Nat) (bs : Nat × Nat) (t : Tweak) (v : KeyVariant) (key : Bytes) :
    (newContext r bs t v key).minLen = BitVec.ofNat 8 bs.1 := rfl
@[simp] theorem newContext_maxLen (r : Nat) (bs : Nat × Nat) (t : Tweak) (v : KeyVariant) (key : Bytes) :
    (newContext r bs t v key).maxLen = BitVec.ofNat 8 bs.2 := rfl
@[simp] theorem newContext_t (r : Nat) (bs : Nat × Nat) (t : Tweak) (v : KeyVariant) (key : Bytes) :
    (newContext r bs t v key).t = t := rfl
@[simp] theorem newContext_klen (r : Nat) (bs : Nat × Nat) (t : Tweak) (v : KeyVariant) (key : Bytes) :
    (newContext r bs t v key).klen = v := rfl
@[simp] theorem newContext_ko (r : Nat) (bs : Nat × Nat) (t : Tweak) (v : KeyVariant) (key : Bytes) :
    (newContext r bs t v key).ko = revBytes key := rfl

/-! ### landed and fetched -/

/-- What the host's turn changes: its own list, and one frame more may wait. -/
theorem landed_cases (s : State) :
    (s.landed = { s with host := s.host.tail } ∧ ∀ f, s.host.head? ≠ some (.offer f)) ∨
      ∃ f, s.host.head? = some (.offer f) ∧ s.landed = { s with host := s.host.tail, waiting := s.waiting ++ [f] } := by
  unfold State.landed
  split
  · next h => exact .inl ⟨by cases s; simp_all, by simp [h]⟩
  · next f rest h => exact .inr ⟨f, by simp [h], by simp [h, State.offer]⟩
  · next rest h => exact .inl ⟨by simp [h], by simp [h]⟩
  · next rest h => exact .inl ⟨by simp [h], by simp [h]⟩

@[simp] theorem landed_valid (s : State) : s.landed.valid = s.valid := by
  rcases landed_cases s with ⟨h, -⟩ | ⟨f, -, h⟩ <;> rw [h]
@[simp] theorem landed_ctx (s : State) : s.landed.ctx = s.ctx := by
  rcases landed_cases s with ⟨h, -⟩ | ⟨f, -, h⟩ <;> rw [h]
@[simp] theorem landed_busy (s : State) : s.landed.busy = s.busy := by
  rcases landed_cases s with ⟨h, -⟩ | ⟨f, -, h⟩ <;> rw [h]
@[simp] theorem landed_call (s : State) : s.landed.call = s.call := by
  rcases landed_cases s with ⟨h, -⟩ | ⟨f, -, h⟩ <;> rw [h]
@[simp] theorem landed_sent (s : State) : s.landed.sent = s.sent := by
  rcases landed_cases s with ⟨h, -⟩ | ⟨f, -, h⟩ <;> rw [h]
@[simp] theorem landed_drawn (s : State) : s.landed.drawn = s.drawn := by
  rcases landed_cases s with ⟨h, -⟩ | ⟨f, -, h⟩ <;> rw [h]
@[simp] theorem landed_host (s : State) : s.landed.host = s.host.tail := by
  rcases landed_cases s with ⟨h, -⟩ | ⟨f, -, h⟩ <;> rw [h]

@[simp] theorem fetched_valid (s : State) : s.fetched.valid = s.valid := by
  unfold State.fetched; split <;> rfl
@[simp] theorem fetched_ctx (s : State) : s.fetched.ctx = s.ctx := by
  unfold State.fetched; split <;> rfl
@[simp] theorem fetched_call (s : State) : s.fetched.call = s.call := by
  unfold State.fetched; split <;> rfl
@[simp] theorem fetched_sent (s : State) : s.fetched.sent = s.sent := by
  unfold State.fetched; split <;> rfl
@[simp] theorem fetched_host (s : State) : s.fetched.host = s.host := by
  unfold State.fetched; split <;> rfl
@[simp] theorem fetched_drawn (s : State) : s.fetched.drawn = s.drawn := by
  unfold State.fetched; split <;> rfl
@[simp] theorem fetched_busy (s : State) : s.fetched.busy = true := by
  unfold State.fetched; split
  · assumption
  · rfl
theorem fetched_of_busy {s : State} (h : s.busy = true) : s.fetched = s := by simp [State.fetched, h]
theorem fetched_of_idle {s : State} (h : s.busy = false) : s.fetched = s.accept s.waiting.tail := by
  simp [State.fetched, h]

end Sys2Proof.Laws
end

