-- ==== Sys2Proof/Laws/Ops.lean ====
section
/-! SUPPORT. What each shared operation can do to the state, said once. -/

namespace Sys2Proof.Laws

open Sys2Proof.Machine

/-! ### Numbers in registers -/

theorem halfUp_le (n : Nat) (h : 1 ≤ n) : halfUp n ≤ n := by unfold halfUp; omega

/-- A message length that fits N has halves that fit U and V. -/
theorem splitCall_toNat {dir : Dir} {tw : Tweak} {x : Digits} (h : x.length < 256) :
    (splitCall dir tw x).n.toNat = x.length ∧ (splitCall dir tw x).u.toNat = halfUp x.length ∧
      (splitCall dir tw x).v.toNat = x.length - halfUp x.length := by
  have : halfUp x.length < 256 := by unfold halfUp; omega
  simp only [splitCall_n, splitCall_u, splitCall_v, BitVec.toNat_ofNat]
  omega

/-- The registers of a new context hold the numbers INIT writes (R22, R23). -/
theorem newContext_toNat {r : Nat} {t : Tweak} {v : KeyVariant} {key : Bytes} (h1 : 2 ≤ r) (h2 : r ≤ 36) :
    (newContext r (minLength r, maxLength r) t v key).radix.toNat = r ∧
      (newContext r (minLength r, maxLength r) t v key).minLen.toNat = minLength r ∧
      (newContext r (minLength r, maxLength r) t v key).maxLen.toNat = maxLength r := by
  have := length_bounds h1 h2
  simp only [newContext_radix, newContext_minLen, newContext_maxLen, BitVec.toNat_ofNat]
  omega

/-! ### INIT -/

/-- Everything INIT can do: it configures and answers `RI`, or it raises one of three errors (R190, R222). -/
theorem initCommand_cases (radix : Byte) (key tweak : Bytes) (s : State) :
    (∃ v t, keyVariant key.length = .ok v ∧ v.bytes = key.length ∧ 2 ≤ radix.toNat ∧ radix.toNat ≤ 36 ∧
        expand tweak = .ok t ∧
        initCommand radix key tweak s =
          (s.configure (newContext radix.toNat (minLength radix.toNat, maxLength radix.toNat) t v key)).answer
            (responseRI (BitVec.ofNat 8 (minLength radix.toNat)) (BitVec.ofNat 8 (maxLength radix.toNat)))) ∨
      ∃ e, initCommand radix key tweak s = s.raise .init e ∧
        ((e = .invalidKeyLength ∧ key.length ≠ 16 ∧ key.length ≠ 24 ∧ key.length ≠ 32) ∨
          (e = .invalidRadix ∧ (radix.toNat < 2 ∨ 36 < radix.toNat) ∧
            (key.length = 16 ∨ key.length = 24 ∨ key.length = 32)) ∨
          (e = .invalidTweakLength ∧ tweak.length ≠ 7 ∧ tweak.length ≠ 8 ∧ 2 ≤ radix.toNat ∧ radix.toNat ≤ 36 ∧
            (key.length = 16 ∨ key.length = 24 ∨ key.length = 32))) := by
  unfold initCommand
  rcases initChecks_cases radix.toNat key tweak with ⟨v, t, hv, hb, h1, h2, ht, h⟩ | ⟨h1, h2, h3, h⟩ | ⟨hk, hr, h⟩ |
      ⟨hk, h1, h2, h3, h4, h⟩ <;> rw [h]
  · exact .inl ⟨v, t, hv, hb, h1, h2, ht, rfl⟩
  · exact .inr ⟨_, rfl, .inl ⟨rfl, h1, h2, h3⟩⟩
  · exact .inr ⟨_, rfl, .inr (.inl ⟨rfl, hr, hk⟩)⟩
  · exact .inr ⟨_, rfl, .inr (.inr ⟨rfl, h3, h4, h1, h2, hk⟩)⟩

/-! ### Transforms -/

/-- Everything the front part of a transform can do: it loads the call registers, or it raises the error of its first
failing check (R195, R223). -/
theorem startTransform_cases (dir : Dir) (sym : Bytes) (tweak : Option Bytes) (s : State) :
    (∃ tw x, s.valid = true ∧ tweakInForce s.ctx tweak = .ok tw ∧ s.ctx.minLen.toNat ≤ sym.length ∧
        sym.length ≤ s.ctx.maxLen.toNat ∧ checkDigits s.ctx.radix.toNat sym = .ok x ∧
        startTransform dir sym tweak s = { s with call := splitCall dir tw x, busy := true }) ∨
      ∃ e, transformChecks s.valid s.ctx sym tweak = .error e ∧
        startTransform dir sym tweak s = s.raise .transform e := by
  unfold startTransform
  cases h : transformChecks s.valid s.ctx sym tweak with
  | error e => exact .inr ⟨e, rfl, rfl⟩
  | ok p =>
    rcases transformChecks_cases s.valid s.ctx sym tweak with ⟨tw, x, hv, ht, h1, h2, hd, h'⟩ | ⟨_, h'⟩ | ⟨_, _, h'⟩ |
      ⟨_, _, _, _, h'⟩ | ⟨_, _, _, _, _, _, h'⟩ <;> rw [h] at h' <;> cases h'
    exact .inl ⟨tw, x, hv, ht, h1, h2, hd, rfl⟩

/-! ### Rounds -/

/-- Everything a round can do: one query and the move of its new half, or the fault of a modulus 0 (R172, R173). -/
theorem roundStep_cases (ciph : Oracle) (dir : Dir) (i : BitVec 3) (s : State) :
    (∃ c, stateHalf ciph dir i s = some c ∧
        roundStep ciph dir i s = .next
          { s with call := s.call.roundMove dir i c, sent := s.sent ++ [.query s.ctx.key (stateQuery dir i s)] }) ∨
      (stateHalf ciph dir i s = none ∧ roundStep ciph dir i s = .fault .valueTooLarge) := by
  unfold roundStep
  cases h : stateHalf ciph dir i s with
  | none => exact .inr ⟨rfl, rfl⟩
  | some c => exact .inl ⟨c, rfl, rfl⟩

theorem stateHalf_some (ciph : Oracle) (dir : Dir) (i : BitVec 3) {s : State} (h : 0 < s.ctx.radix.toNat) :
    ∃ c, stateHalf ciph dir i s = some c := roundF_some h

/-- A round's new half has the length of the half it replaces by R151, and digits below the radix. -/
theorem stateHalf_cases {ciph : Oracle} {dir : Dir} {i : BitVec 3} {s : State} {c : Digits}
    (hr : 0 < s.ctx.radix.toNat) (h : stateHalf ciph dir i s = some c) :
    c.length = halfLength i s.call.u.toNat s.call.v.toNat ∧ ∀ d ∈ c, d < s.ctx.radix.toNat :=
  ⟨(roundF_cases hr h).1, (roundF_cases hr h).2.1⟩

/-! ### The scheduler -/

/-- The control word selects the round that RI and DIR name (R83). -/
theorem decodeControl_controlWord (s : State) :
    decodeControl s.controlWord =
      match s.call.dir with
      | .encrypt => .rnde s.call.ri
      | .decrypt => .rndd s.call.ri := by
  have key : ∀ i : BitVec 3, decodeControl (0#1 ++ i) = .rnde i ∧ decodeControl (1#1 ++ i) = .rndd i := by decide
  unfold State.controlWord
  cases s.call.dir
  · exact (key _).1
  · exact (key _).2

/-- What the sequencer fetches while no command executes: the oldest waiting frame (R196). -/
theorem fetch_idle {s : State} (h : s.busy = false) : s.fetch = s.waiting.head?.map .frame := by
  simp [State.fetch, h]

theorem fetch_round {s : State} (h : s.busy = true) (hd : s.roundsDone = false) :
    s.fetch = some (.control s.controlWord) := by
  simp [State.fetch, h, hd]

theorem fetch_done {s : State} (h : s.busy = true) (hd : s.roundsDone = true) : s.fetch = none := by
  simp [State.fetch, h, hd]

end Sys2Proof.Laws
end

