-- ==== Sys2Proof/Laws/Step.lean ====
section
/-! SUPPORT. What one turn of the engine and one step of the machine can do, said once. -/

namespace Sys2Proof.Laws

open Sys2Proof.Machine

/-- A round as the machine runs it: the micro-operation of a direction. -/
theorem exec_round (dir : Dir) (i : BitVec 3) (s : State) :
    exec (match dir with | .encrypt => .rnde i | .decrypt => .rndd i) s = roundStep Config.ciph dir i s := by
  cases dir <;> rfl

/-- Everything one turn of the engine can do. In a call: the next round, or the end of the call. With no call: the
oldest waiting frame is accepted and answered IllegalCommand or run; with no frame, nothing. -/
theorem engineTurn_cases (s : State) :
    (s.busy = true ∧ s.roundsDone = false ∧ engineTurn s = roundStep Config.ciph s.call.dir s.call.ri s) ∨
      (s.busy = true ∧ s.roundsDone = true ∧ engineTurn s = .next s.finishTransform) ∨
      (s.busy = false ∧ s.waiting = [] ∧ engineTurn s = .next s) ∨
      (∃ f rest e, s.busy = false ∧ s.waiting = f :: rest ∧ decodeFrame f = .error e ∧
        engineTurn s = .next ((s.accept rest).raise .illegalFrame .illegalCommand)) ∨
      (∃ f rest i, s.busy = false ∧ s.waiting = f :: rest ∧ decodeFrame f = .ok i ∧
        engineTurn s = exec i (s.accept rest)) := by
  unfold engineTurn
  cases hb : s.busy with
  | true =>
    cases hd : s.roundsDone with
    | true => simp [fetch_done hb hd]
    | false =>
      left
      simp only [fetch_round hb hd, decode, decodeControl_controlWord, fetched_of_busy hb]
      exact ⟨trivial, trivial, exec_round _ _ _⟩
  | false =>
    rw [fetch_idle hb]
    cases hw : s.waiting with
    | nil => simp
    | cons f rest =>
      simp only [List.head?_cons, Option.map_some, decode, fetched_of_idle hb, hw, List.tail_cons]
      cases hf : decodeFrame f with
      | error e => exact .inr (.inr (.inr (.inl ⟨f, rest, e, trivial, rfl, hf, rfl⟩)))
      | ok i => exact .inr (.inr (.inr (.inr ⟨f, rest, i, trivial, rfl, hf, rfl⟩)))

/-- No frame decodes to a micro-operation: no command carries a control word (R83). -/
theorem decodeFrame_command {f : Bytes} {i : Instr} (h : decodeFrame f = .ok i) :
    (∀ j, i ≠ .rnde j) ∧ ∀ j, i ≠ .rndd j := by
  unfold decodeFrame decodeI decodeM decodeMT at h
  repeat' split at h
  all_goals first
    | cases h; done
    | (cases h; exact ⟨nofun, nofun⟩)

/-- What a transform command does when it runs: the front part of XFORM (R191 to R195). -/
theorem exec_request {i : Instr} {dir : Dir} {sym : Bytes} {tweak : Option Bytes}
    (h : transformRequest i = some (dir, sym, tweak)) (s : State) :
    exec i s = .next (startTransform dir sym tweak s) := by
  cases i <;> cases h <;> rfl

/-- Every instruction that a frame holds is INIT or a transform command. -/
theorem command_cases {f : Bytes} {i : Instr} (h : decodeFrame f = .ok i) :
    (∃ radix key tweak, i = .init radix key tweak) ∨ ∃ req, transformRequest i = some req := by
  obtain ⟨h1, h2⟩ := decodeFrame_command h
  cases i with
  | init radix key tweak => exact .inl ⟨radix, key, tweak, rfl⟩
  | enc | dec | enct | dect => exact .inr ⟨_, rfl⟩
  | rnde j => exact absurd rfl (h1 j)
  | rndd j => exact absurd rfl (h2 j)

theorem step_of_resetNow {s : State} (h : s.resetNow = true) : step s = .next s.landed.assertReset := by
  simp [step, machineTurn, h]

theorem step_of_not_resetNow {s : State} (h : s.resetNow = false) : step s = engineTurn s.landed := by
  simp [step, machineTurn, h]

/-- What waits after the host's turn: what waited, and the frame it offered in this step (R196). -/
theorem landed_waiting (s : State) : s.landed.waiting = s.waiting ++ offeredFrames (s.host.take 1) := by
  unfold State.landed
  split <;> simp [offeredFrames, State.offer, *]

/-- The frames offered in `k + 1` steps are those of the first step and those of the `k` steps after it. -/
theorem offeredFrames_take_succ (actions : List HostAction) (k : Nat) :
    offeredFrames (actions.take (k + 1)) =
      offeredFrames (actions.take 1) ++ offeredFrames (actions.tail.take k) := by
  cases actions with
  | nil => simp [offeredFrames]
  | cons a rest => cases a <;> simp [offeredFrames]

/-- Everything one step that answers a next state can do: reset, a round, the end of a call, nothing, an illegal frame's
answer, INIT, or the front part of a transform. -/
theorem step_cases {s t : State} (h : step s = .next t) :
    (s.resetNow = true ∧ t = s.landed.assertReset) ∨
      (s.resetNow = false ∧
        ((s.busy = true ∧ s.roundsDone = false ∧
            roundStep Config.ciph s.call.dir s.call.ri s.landed = .next t) ∨
          (s.busy = true ∧ s.roundsDone = true ∧ t = s.landed.finishTransform) ∨
          (s.busy = false ∧ s.landed.waiting = [] ∧ t = s.landed) ∨
          (∃ f rest e, s.busy = false ∧ s.landed.waiting = f :: rest ∧ decodeFrame f = .error e ∧
            t = (s.landed.accept rest).raise .illegalFrame .illegalCommand) ∨
          (∃ f rest radix key tweak, s.busy = false ∧ s.landed.waiting = f :: rest ∧
            decodeFrame f = .ok (.init radix key tweak) ∧ t = initCommand radix key tweak (s.landed.accept rest)) ∨
          (∃ f rest i dir sym tweak, s.busy = false ∧ s.landed.waiting = f :: rest ∧ decodeFrame f = .ok i ∧
            transformRequest i = some (dir, sym, tweak) ∧
            t = startTransform dir sym tweak (s.landed.accept rest)))) := by
  cases hr : s.resetNow with
  | true =>
    rw [step_of_resetNow hr] at h
    cases h
    exact .inl ⟨rfl, rfl⟩
  | false =>
    refine .inr ⟨rfl, ?_⟩
    rw [step_of_not_resetNow hr] at h
    have hd : s.landed.roundsDone = s.roundsDone := by simp [State.roundsDone]
    rcases engineTurn_cases s.landed with ⟨a, b, c⟩ | ⟨a, b, c⟩ | ⟨a, b, c⟩ | ⟨f, rest, e, a, b, c, d⟩ |
        ⟨f, rest, i, a, b, c, d⟩
    · rw [c] at h
      simp only [landed_busy, landed_call] at a h
      exact .inl ⟨a, hd ▸ b, h⟩
    · rw [c] at h
      cases h
      exact .inr (.inl ⟨by simpa using a, hd ▸ b, rfl⟩)
    · rw [c] at h
      cases h
      exact .inr (.inr (.inl ⟨by simpa using a, b, rfl⟩))
    · rw [d] at h
      cases h
      exact .inr (.inr (.inr (.inl ⟨f, rest, e, by simpa using a, b, c, rfl⟩)))
    · rw [d] at h
      rcases command_cases c with ⟨radix, key, tweak, rfl⟩ | ⟨⟨dir, sym, tweak⟩, hq⟩
      · cases h
        exact .inr (.inr (.inr (.inr (.inl ⟨f, rest, radix, key, tweak, by simpa using a, b, c, rfl⟩))))
      · rw [exec_request hq] at h
        cases h
        exact .inr (.inr (.inr (.inr (.inr ⟨f, rest, i, dir, sym, tweak, by simpa using a, b, c, hq, rfl⟩))))

/-! ### Runs of several steps -/

theorem run_succ (M : Host.Core) (k : Nat) {s t : M.State} (h : M.step s = .next t) : M.run (k + 1) s = M.run k t := by
  rw [Host.Core.run, h]

theorem runSteps_zero (s : State) : runSteps 0 s = .next s := rfl

/-- One step and then `k` more. -/
theorem runSteps_succ (k : Nat) {s t : State} (h : step s = .next t) : runSteps (k + 1) s = runSteps k t :=
  run_succ Sys2Proof.core k h

end Sys2Proof.Laws
end

