-- ==== Sys2Proof/Laws/Legal.lean ====
section
/-! SUPPORT. What INIT, the split and one round make is legal (10_state.md R22 to R29). -/

namespace Sys2Proof.Laws

open Sys2Proof.Machine

theorem legal_radix_pos {c : Context} (h : c.Legal) : 1 ≤ c.radix.toNat := by
  have := h.radix_min
  omega

theorem legal_minLen {c : Context} (h : c.Legal) : 4 ≤ c.minLen.toNat := by
  rw [h.minLen_eq]
  exact (length_bounds h.radix_min h.radix_max).1

/-- The context a successful INIT builds is legal (R190). -/
theorem newContext_legal {r : Nat} {t : Tweak} {v : KeyVariant} {key : Bytes} (h1 : 2 ≤ r) (h2 : r ≤ 36)
    (hk : v.bytes = key.length) : (newContext r (minLength r, maxLength r) t v key).Legal := by
  obtain ⟨a, b, c⟩ := newContext_toNat (t := t) (v := v) (key := key) h1 h2
  exact ⟨by omega, by omega, by rw [b, a], by rw [c, a], by simp [revBytes, hk]⟩

/-- The split of a message in range is legal (R170). -/
theorem splitCall_legal {c : Context} {dir : Dir} {tw : Tweak} {x : Digits} (h1 : c.minLen.toNat ≤ x.length)
    (h2 : x.length ≤ c.maxLen.toNat) (h0 : 1 ≤ x.length) (hd : ∀ d ∈ x, d < c.radix.toNat) :
    (splitCall dir tw x).Legal c := by
  have := c.maxLen.isLt
  obtain ⟨a, b, e⟩ := splitCall_toNat (dir := dir) (tw := tw) (x := x) (by omega)
  have := halfUp_le x.length h0
  refine ⟨by omega, by omega, by rw [a, b], by rw [a, e], by simp, by cases dir <;> rfl, ?_, ?_, ?_, ?_⟩
  · simp only [splitCall_rc, b]
    simp [this]
  · simp only [splitCall_rc, e]
    simp
  · intro d h
    exact hd d (List.mem_of_mem_take h)
  · intro d h
    exact hd d (List.mem_of_mem_drop h)

theorem evenRound_eq (i : BitVec 3) : evenRound i = decide (i.toNat % 2 = 0) := by
  have key : ∀ i : BitVec 3, evenRound i = decide (i.toNat % 2 = 0) := by decide
  exact key i

/-- A scheduled round keeps the call registers legal (R172, R173, R177). -/
theorem roundMove_legal {c : Context} {q : CallRegs} {e : Digits} (h : q.Legal c) (hrc : q.rc ≠ 8#4)
    (hl : e.length = halfLength q.ri q.u.toNat q.v.toNat) (hd : ∀ d ∈ e, d < c.radix.toNat) :
    (q.roundMove q.dir q.ri e).Legal c := by
  obtain ⟨h1, h2, h3, h4, h5, h6, h7, h8, h9, h10⟩ := h
  have hlt : q.rc.toNat < 8 := by
    rcases Nat.lt_or_ge q.rc.toNat 8 with h | h
    · exact h
    · exact absurd (BitVec.eq_of_toNat_eq (by simp; omega)) hrc
  have hrcn : (q.rc + 1#4).toNat = q.rc.toNat + 1 := by
    rw [BitVec.toNat_add]
    simp
    omega
  unfold halfLength at hl
  rw [evenRound_eq] at hl
  have hb3 := q.ri.isLt
  cases hdir : q.dir <;> rw [hdir] at h6 <;> simp only [roundAfter] at h6
  · refine ⟨h1, h2, h3, h4, by simp only [roundMove_encrypt_rc]; omega, ?_, ?_, ?_, h10, hd⟩
    · simp only [roundMove_encrypt_dir, roundMove_encrypt_rc, roundMove_encrypt_ri, hdir, roundAfter, hrcn, nextRound]
      split
      · next h => rw [h] at h6 ⊢; simp at h6 ⊢; omega
      · next h =>
        have : q.ri.toNat ≠ 7 := fun h' => h (BitVec.eq_of_toNat_eq (by simpa using h'))
        rw [BitVec.toNat_add]; simp; omega
    · simp only [roundMove_encrypt_rc, hrcn, roundMove_encrypt_a, h8]
      by_cases hh : q.rc.toNat % 2 = 0
      · rw [if_pos hh, if_neg (by omega)]; rfl
      · rw [if_neg hh, if_pos (by omega)]; rfl
    · simp only [roundMove_encrypt_rc, hrcn, roundMove_encrypt_b, hl]
      by_cases hh : q.rc.toNat % 2 = 0
      · rw [if_pos (by simp; omega), if_neg (by omega)]; rfl
      · rw [if_neg (by simp; omega), if_pos (by omega)]; rfl
  · refine ⟨h1, h2, h3, h4, by simp only [roundMove_decrypt_rc]; omega, ?_, ?_, ?_, hd, h9⟩
    · simp only [roundMove_decrypt_dir, roundMove_decrypt_rc, roundMove_decrypt_ri, hdir, roundAfter, hrcn, nextRound]
      split
      · next h => rw [h] at h6 ⊢; simp at h6 ⊢; omega
      · next h =>
        have : q.ri.toNat ≠ 0 := fun h' => h (BitVec.eq_of_toNat_eq (by simpa using h'))
        rw [BitVec.toNat_sub]; simp; omega
    · simp only [roundMove_decrypt_rc, hrcn, roundMove_decrypt_a, hl]
      by_cases hh : q.rc.toNat % 2 = 0
      · rw [if_neg (by simp; omega), if_neg (by omega)]; rfl
      · rw [if_pos (by simp; omega), if_pos (by omega)]; rfl
    · simp only [roundMove_decrypt_rc, hrcn, roundMove_decrypt_b, h7]
      by_cases hh : q.rc.toNat % 2 = 0
      · rw [if_pos hh, if_neg (by omega)]; rfl
      · rw [if_neg hh, if_pos (by omega)]; rfl

end Sys2Proof.Laws
end

