-- ==== Sys2Proof/Laws/PerInstr.lean ====
section
/-! SUPPORT. What holds of each instruction's encoding, one lemma per constructor. -/

namespace Sys2Proof.Laws.EncodedForm

open Sys2Proof

/-- The length in bytes of an instruction's frame by its format (R71, R73, R74); a control word has none. -/
def frameLength : Instr → Option Nat
  | .init _ key tweak => some (4 + key.length + tweak.length)
  | .enc sym => some (2 + sym.length)
  | .dec sym => some (2 + sym.length)
  | .enct sym tweak => some (3 + sym.length + tweak.length)
  | .dect sym tweak => some (3 + sym.length + tweak.length)
  | .rnde _ => none
  | .rndd _ => none

/-- The opcode byte of a command (R72). -/
def opcode : Instr → Option Byte
  | .init _ _ _ => some 0x01#8
  | .enc _ => some 0x02#8
  | .dec _ => some 0x03#8
  | .enct _ _ => some 0x06#8
  | .dect _ _ => some 0x07#8
  | .rnde _ => none
  | .rndd _ => none

/-- An encoded command is a frame of its format's length that begins with its opcode; an encoded micro-operation is a
control word. -/
def Statement (i : Instr) : Prop :=
  match encode i with
  | .frame bytes => bytes.head? = opcode i ∧ some bytes.length = frameLength i
  | .control _ => opcode i = none ∧ frameLength i = none

theorem init (radix : Byte) (key tweak : Bytes) : Statement (.init radix key tweak) := by
  simp [Statement, encode, opcode, frameLength]
  omega

theorem enc (sym : Bytes) : Statement (.enc sym) := by
  simp [Statement, encode, opcode, frameLength]
  omega

theorem dec (sym : Bytes) : Statement (.dec sym) := by
  simp [Statement, encode, opcode, frameLength]
  omega

theorem enct (sym tweak : Bytes) : Statement (.enct sym tweak) := by
  simp [Statement, encode, opcode, frameLength]
  omega

theorem dect (sym tweak : Bytes) : Statement (.dect sym tweak) := by
  simp [Statement, encode, opcode, frameLength]
  omega

theorem rnde (i : BitVec 3) : Statement (.rnde i) := ⟨rfl, rfl⟩

theorem rndd (i : BitVec 3) : Statement (.rndd i) := ⟨rfl, rfl⟩

end Sys2Proof.Laws.EncodedForm
end

