-- ==== Sys2Proof/Tests/Slice0.lean ====
section
/-! SUPPORT. The model's own tests. Expected values come from the rules' examples, from 95_test_vectors.md and from
96_round_traces.md; `test_witness_<Name>` shows inputs that meet all hypotheses of the obligation of that name. -/

namespace Sys2Proof.Tests

open Sys2Proof.Machine

/-! ### Small builders -/

/-- The ASCII bytes of a text (R76). -/
def sym (t : String) : Bytes := t.toList.map fun c => BitVec.ofNat 8 c.toNat

/-- The digits of a text of symbols (R76). -/
def digits (t : String) : Digits := (sym t).map fun b => (symbolDigit b).getD 99

/-- The `n` bytes of a number, the most significant first. -/
def bytes (n x : Nat) : Bytes := (List.range n).map fun j => BitVec.ofNat 8 (x / 256 ^ (n - 1 - j))

/-- The block that a number spells, the most significant byte first. -/
def block (x : Nat) : Block := Vector.ofFn fun j : Fin 16 => BitVec.ofNat 8 (x / 256 ^ (15 - j.val))

/-- K1 and the two tweaks of Vectors 1 and 3 (95_test_vectors.md). -/
def k1 : Bytes := bytes 16 0xEF4359D8D580AA4F7F036D6F04FC6A94
def t1 : Bytes := bytes 8 0xD8E7920AFA330A73
def t3 : Bytes := bytes 7 0xD8E7920AFA330A
def tw1 : Tweak := #v[0xd8#8, 0xe7#8, 0x92#8, 0x0a#8, 0xfa#8, 0x33#8, 0x0a#8, 0x73#8]
def tw3 : Tweak := #v[0xd8#8, 0xe7#8, 0x92#8, 0x00#8, 0xfa#8, 0x33#8, 0x0a#8, 0xa0#8]

/-- The oracles `zero`, `one` and `ident` of 95_test_vectors.md. -/
def zeroOracle : Oracle := fun _ _ => block 0
def oneOracle : Oracle := fun _ _ => block (2 ^ 120)
def identOracle : Oracle := fun _ q => q

/-- An oracle that answers the listed queries and zero to every other one. -/
def tableOracle (rows : List (Nat × Nat)) : Oracle := fun _ q =>
  match rows.find? fun row => (block row.1).toList = q.toList with
  | some row => block row.2
  | none => block 0

/-- A context of a radix made by INIT with K1 and the tweak of Vector 1. -/
def ctx (r : Nat) : Context := newContext r (minLength r, maxLength r) tw1 .bits128 k1

/-- A configured engine with no call in progress. -/
def idle (r : Nat) : State := State.reset.configure (ctx r)

/-- An engine in a call on the message 123456 at a round index and a round count. -/
def inCall (dir : Dir) (ri : BitVec 3) (rc : BitVec 4) : State :=
  { idle 10 with busy := true, call := { splitCall dir tw1 (digits "123456") with ri := ri, rc := rc } }

/-- A state with one frame waiting. -/
def offered (s : State) (frame : Bytes) : State := { s with waiting := [frame] }

/-- What one step adds to an empty log of outward events. -/
def answers (s : State) : List Event :=
  match step s with
  | .next t => t.sent
  | .fault _ => []
  | .refused _ => []

/-- One register after one step. -/
def after {α : Type} (f : State → α) (s : State) : Option α :=
  match step s with
  | .next t => some (f t)
  | .fault _ => none
  | .refused _ => none

/-! ### WellFormed: an ill-formed term for each check -/

def long : Bytes := List.replicate 256 0x30#8

theorem long_refused : ¬ Countable long := by decide +kernel

theorem test_wf_init_key : ¬ WellFormed (.init 10#8 long t1) := fun h => long_refused h.1
theorem test_wf_init_tweak : ¬ WellFormed (.init 10#8 k1 long) := fun h => long_refused h.2
theorem test_wf_enc : ¬ WellFormed (.enc long) := long_refused
theorem test_wf_dec : ¬ WellFormed (.dec long) := long_refused
theorem test_wf_enct_sym : ¬ WellFormed (.enct long t1) := fun h => long_refused h.1
theorem test_wf_enct_tweak : ¬ WellFormed (.enct [] long) := fun h => long_refused h.2
theorem test_wf_dect_sym : ¬ WellFormed (.dect long t1) := fun h => long_refused h.1
theorem test_wf_dect_tweak : ¬ WellFormed (.dect [] long) := fun h => long_refused h.2

/-! ### Decoding (R71 to R74, R83, R90) -/

theorem test_decode_init : decode (.frame [0b00000001, 0x0a, 0x02, 0x01, 0xef, 0x43, 0xd8]) =
    .ok (.init 0x0a [0xef, 0x43] [0xd8]) := by decide
theorem test_decode_enc : decode (.frame [0b00000010, 0x03, 0x31, 0x32, 0x33]) = .ok (.enc [0x31, 0x32, 0x33]) := by decide
theorem test_decode_dec : decode (.frame [0b00000011, 0x01, 0x7a]) = .ok (.dec [0x7a]) := by decide
theorem test_decode_enct : decode (.frame [0b00000110, 0x01, 0x02, 0x61, 0xfa, 0x33]) = .ok (.enct [0x61] [0xfa, 0x33]) := by decide
theorem test_decode_dect : decode (.frame [0b00000111, 0x02, 0x01, 0x61, 0x7a, 0xfa]) = .ok (.dect [0x61, 0x7a] [0xfa]) := by decide
theorem test_decode_rnde : decode (.control 0b0110#4) = .ok (.rnde 6#3) := by decide
theorem test_decode_rndd : decode (.control 0b1001#4) = .ok (.rndd 1#3) := by decide

theorem test_decode_illegal :
    [[], [0x00], [0x04, 0x00], [0x05], [0x08], [0xff], [0x01], [0x01, 0x0a, 0x10], [0x02], [0x02, 0x06, 0x31, 0x32],
      [0x02, 0x01, 0x31, 0xff], [0x06, 0x06]].map decodeFrame =
    [.error .emptyFrame, .error (.reservedOpcode 0x00), .error (.reservedOpcode 0x04), .error (.reservedOpcode 0x05),
      .error (.reservedOpcode 0x08), .error (.reservedOpcode 0xff), .error .noLengthBytes, .error .noLengthBytes,
      .error .noLengthBytes, .error .wrongLength, .error .wrongLength, .error .noLengthBytes] := by decide

theorem test_table_words :
    [decodeTableWord 8 0x01, decodeTableWord 8 0x02, decodeTableWord 8 0x03, decodeTableWord 8 0x06, decodeTableWord 8 0x07,
      decodeTableWord 4 0b0101, decodeTableWord 4 0b1010, decodeTableWord 8 0b0101, decodeTableWord 8 0b1010] =
    [some (.init 0 [] []), some (.enc []), some (.dec []), some (.enct [] []), some (.dect [] []),
      some (.rnde 5), some (.rndd 2), some (.rnde 5), some (.rndd 2)] := by decide

/-- A table word runs as the first instruction after reset: a transform answers NotConfigured (R252). -/
theorem test_placed_enc : answers (State.reset.withFetchWord 8 0x02) = [.response [0x08]] := by decide
theorem test_placed_rndd : after (fun t => (t.call.ri, t.call.rc)) (State.reset.withFetchWord 4 0b1101) = some (4#3, 3#4) := by
  decide

/-! ### The assembler (R92, R93) -/

theorem test_assemble :
    assemble "ENCT \"890121\", tweak=D8E7920AFA330A ; over".toList = some (.enct (sym "890121") t3) ∧
      assemble "INIT  key=ef43, tweak=, radix=36".toList = some (.init 36 [0xef, 0x43] []) ∧
      assemble "INIT  key=ef4, tweak=00".toList = none := by decide
theorem test_response_lines :
    errorResponseLine .notConfigured = "-> NotConfigured".toList ∧
      messageResponseLine (sym "a9") = "-> OK \"a9\"".toList ∧
      boundsResponseLine 6 56 = "-> OK 6, 56".toList := by decide

/-! ### Validator, tweak codec, radix codec (95_test_vectors.md 2.1 to 2.3) -/

theorem test_bounds : [2, 10, 16, 26, 36].map (fun r => (minLength r, maxLength r)) =
    [(20, 192), (6, 56), (5, 48), (5, 40), (4, 36)] := by decide
theorem test_expand : expand t3 = .ok tw3 ∧ expand t1 = .ok tw1 ∧
    expand [0, 0, 0, 0x0f, 0, 0, 0] = .ok #v[0, 0, 0, 0, 0, 0, 0, 0xf0] ∧ expand [0, 0, 0, 0, 0, 0] = .error .invalidTweakLength := by
  decide
theorem test_num : num 36 (digits "zz") = 1295 ∧ num 26 (digits "0123456789") = 225867353045 ∧ num 10 [0, 0, 7] = 7 := by
  decide
theorem test_str : toDigitString 10 5 42 = .ok [0, 0, 0, 4, 2] ∧ toDigitString 36 2 1295 = .ok [35, 35] ∧
    toDigitString 36 2 1296 = .error .valueTooLarge ∧ toDigitString 10 5 0 = .ok [0, 0, 0, 0, 0] := by decide
theorem test_bytes : toFixedBytes 0 = [] ∧ toFixedBytes 255 = [0xff] ∧ toFixedBytes 256 = [0x01, 0x00] ∧
    toFixedBytes 98765 = [0x01, 0x81, 0xcd] := by decide
theorem test_emod : emod (-1) 1000 = 999 ∧ emod (-1000) 1000 = 0 ∧ emod (-5) 3 = 1 ∧
    emod (-(2 ^ 128 - 1)) (10 ^ 9) = 231788545 := by decide
theorem test_digits : checkDigits 11 (sym "aaaaaa") = .ok [10, 10, 10, 10, 10, 10] ∧
    checkDigits 11 (sym "aaaaab") = .error .invalidDigitForRadix ∧
    checkDigits 36 (sym "12345A") = .error .invalidDigitForRadix := by decide

/-! ### Single rounds (95_test_vectors.md 2.4) -/

theorem test_block : (roundBlock 0 (tweakHalf 0 tw1) 10 (digits "567890000")).toList = bytes 16 0xfa330a730000000000000000000181cd ∧
    (roundQuery 7 tw1 10 (digits "750918814")).toList = bytes 16 0xf1abf61800000000000000000d92e7d8 := by decide
theorem test_round_add : roundF oneOracle [] 0 .encrypt tw3 36 3 2 (digits "zz") (digits "zzz") = some (digits "000") ∧
    roundF oneOracle [] 0 .encrypt tw1 10 3 3 (digits "000") (digits "000") = some (digits "100") := by decide
theorem test_round_subtract : roundF oneOracle [] 0 .decrypt tw1 10 3 3 (digits "000") (digits "000") = some (digits "999") ∧
    roundF oneOracle [] 7 .decrypt tw1 10 3 3 (digits "400") (digits "400") = some (digits "300") := by decide
theorem test_round_ident : roundF identOracle [] 0 .encrypt tw1 10 3 3 (digits "000") (digits "000") = some (digits "696") ∧
    roundF identOracle [] 1 .encrypt tw1 10 3 3 (digits "696") (digits "000") = some (digits "023") := by decide
/-- The two AES rows, with the answers the table gives. -/
theorem test_round_aes :
    roundF (fun _ _ => block 0x390075fffb246934ff3d0e214a3e7fde) k1 0 .encrypt tw1 10 9 9 (digits "567890000") (digits "890121234") =
      some (digits "994601732") ∧
    roundF (fun _ _ => block 0x0daafb88c1a1fe434821196e538df3ed) k1 7 .decrypt tw1 10 9 9 (digits "750918814") (digits "058654607") =
      some (digits "141131789") := by decide

/-! ### The schedules (95_test_vectors.md 2.5, 96_round_traces.md T2) -/

/-- The queries and answers of Vector 2's encryption (T2.1). -/
def vector2 : List (Nat × Nat) :=
  [(0x20bb382b8c03000000000000d8120ef6, 0x6a9eb15b3eaf0b0d259601a33e469220),
   (0x24bdfcbfa030000000000000938a769a, 0xa34e27ed63072d617a8a96294976d153),
   (0xc3036c52b600000000000000da120ef6, 0xbaa4fb19f277c72af9b5ffc8a6176334),
   (0xded5b6871940000000000000918a769a, 0xf0b1dd0eb93f7a60d6c4190a5fa92222),
   (0xb373536d1404000000000000dc120ef6, 0x4cae4291056eec39a12929b072c6def0),
   (0x2af0de6abd13000000000000978a769a, 0x1bd36281f3a6c46187c404c7fe9d19a4),
   (0xce4069743904000000000000de120ef6, 0x7e877ab1e942f13d6d1b70d615625033),
   (0xa8e70007a80b000000000000958a769a, 0xffad3a260ffee1876887def78af9fda3)]

def tw2 : Tweak := #v[0x9a#8, 0x76#8, 0x8a#8, 0x92#8, 0xf6#8, 0x0e#8, 0x12#8, 0xd8#8]

/-- Vector 2 (S3): radix 26, an odd length, and the eight queries of the trace in order. -/
theorem test_vector2_encrypt :
    (transform (tableOracle vector2) (ctx 26) .encrypt tw2 (digits "0123456789abcdefghi")).map
      (fun out => (symbols out.1, out.2.map Vector.toList)) =
    some (sym "g2pk40i992fn20cjakb", vector2.map fun row => (block row.1).toList) := by decide +kernel
theorem test_vector2_decrypt :
    (transform (tableOracle vector2) (ctx 26) .decrypt tw2 (digits "g2pk40i992fn20cjakb")).map (fun out => symbols out.1) =
    some (sym "0123456789abcdefghi") := by decide +kernel
theorem test_schedule_one :
    (transform oneOracle (ctx 10) .encrypt tw1 (digits "1234567")).map Prod.fst = some (digits "5234967") ∧
      (transform oneOracle (ctx 10) .decrypt tw1 (digits "5234967")).map Prod.fst = some (digits "1234567") := by decide
theorem test_schedule_ident :
    (transform identOracle (ctx 36) .encrypt tw3 (digits "zzzzz")).map Prod.fst = some (digits "ifcl5") := by decide

/-! ### One step for each command (95_test_vectors.md S2 to S5, 2.6) -/

theorem test_init : answers (offered State.reset (0x01#8 :: 0x0a#8 :: 0x10#8 :: 0x07#8 :: (k1 ++ t3))) =
    [.response [0x00, 0x06, 0x38]] := by decide
theorem test_init_registers :
    after (fun t => (t.valid, t.ctx.t, t.ctx.ko)) (offered State.reset (0x01#8 :: 0x0a#8 :: 0x10#8 :: 0x07#8 :: (k1 ++ t3))) =
      some (true, tw3, bytes 16 0x946afc046f6d037f4faa80d5d85943ef) := by decide
theorem test_init_errors :
    [0x01#8 :: 0x63#8 :: 0x14#8 :: 0x06#8 :: (List.replicate 20 0#8 ++ bytes 6 0xd8e7920afa33),
      0x01#8 :: 0x63#8 :: 0x10#8 :: 0x06#8 :: (k1 ++ bytes 6 0xd8e7920afa33),
      0x01#8 :: 0x0a#8 :: 0x10#8 :: 0x06#8 :: (k1 ++ bytes 6 0xd8e7920afa33)].map
        (fun f => (answers (offered (idle 10) f), after (·.valid) (offered (idle 10) f))) =
      [([.response [0x01]], some false), ([.response [0x02]], some false), ([.response [0x04]], some false)] := by decide
theorem test_enc_starts :
    after (fun t => (t.busy, t.call.u.toNat, t.call.a, t.call.b))
        (offered (idle 10) (0x02#8 :: 0x07#8 :: sym "1234567")) =
      some (true, 4, digits "1234", digits "567") := by decide
theorem test_dec_starts :
    after (fun t => (t.busy, t.call.dir, t.call.tw, t.call.ri)) (offered (idle 10) (0x03#8 :: 0x07#8 :: sym "1234567")) =
      some (true, .decrypt, tw1, 7#3) := by decide
theorem test_enct_starts :
    after (fun t => (t.busy, t.call.dir, t.call.tw, t.ctx.t)) (offered (idle 10) (0x06#8 :: 0x06#8 :: 0x07#8 :: (sym "123456" ++ t3))) =
      some (true, .encrypt, tw3, tw1) := by decide
theorem test_dect_starts :
    after (fun t => (t.busy, t.call.dir, t.call.tw, t.call.b)) (offered (idle 10) (0x07#8 :: 0x06#8 :: 0x07#8 :: (sym "123456" ++ t3))) =
      some (true, .decrypt, tw3, digits "456") := by decide
/-- The rows of the priority table, in a context and in none. -/
theorem test_transform_errors :
    answers (offered State.reset (0x06#8 :: 0x05#8 :: 0x06#8 :: (sym "12345" ++ bytes 6 0xd8e7920afa33))) = [.response [0x08]] ∧
    [0x06#8 :: 0x05#8 :: 0x06#8 :: (sym "12345" ++ bytes 6 0xd8e7920afa33), 0x02#8 :: 0x05#8 :: sym "1234a",
      0x06#8 :: 0x06#8 :: 0x07#8 :: (sym "12345a" ++ t3), 0x03#8 :: 0x06#8 :: sym "12345/", [0x02#8, 0x00#8],
      0x02#8 :: 0x39#8 :: List.replicate 57 0x31#8, [0x04#8, 0x00#8]].map (fun f => answers (offered (idle 10) f)) =
      [[.response [0x04]], [.response [0x05]], [.response [0x06]], [.response [0x06]], [.response [0x05]], [.response [0x05]],
        [.response [0x09]]] := by decide
theorem test_rnde : after (fun t => (t.call.a, t.call.ri, t.call.rc, t.sent.length)) (inCall .encrypt 0 0) =
    some (digits "456", 1#3, 1#4, 1) := by decide
theorem test_rndd : after (fun t => (t.call.b, t.call.ri, t.call.rc, t.busy)) (inCall .decrypt 0 7) =
    some (digits "123", 0#3, 8#4, true) := by decide
theorem test_call_end : answers (inCall .encrypt 7 8) = [.response (0x00#8 :: 0x06#8 :: sym "123456")] := by decide
theorem test_reset_in_call :
    after (fun t => (t.valid, t.busy, t.sent.length)) { inCall .encrypt 3 3 with host := [.reset] } = some (false, false, 0) := by decide

/-! ### Witnesses: states and operands that meet all hypotheses of an obligation -/

theorem test_witness_DecodeOfEncodeIsTheInstruction :
    WellFormed (.enct (List.replicate 255 0x30#8) (List.replicate 255 0#8)) ∧ WellFormed (.init 0#8 [] []) ∧
      WellFormed (.rndd 7#3) := by decide +kernel
theorem test_witness_EncodeOfDecodeIsTheCode :
    decode (.frame [0x02, 0x00]) = .ok (.enc []) ∧ decode (.control 0b1111#4) = .ok (.rndd 7#3) := by decide
/-- Of the second clause, an illegal frame. -/
theorem test_witness_IllegalFramesAreAnsweredIllegalCommand :
    (offered (idle 10) [0x02, 0x01]).busy = false ∧ (offered (idle 10) [0x02, 0x01]).waiting = [0x02, 0x01] :: [] ∧
      ¬ LegalFrame [0x02, 0x01] := by
  refine ⟨rfl, rfl, ?_⟩
  simp [LegalFrame]
/-- In a call and out of one. -/
theorem test_witness_StepRunsTheDecodedInstruction :
    ((inCall .decrypt 5 2).resetNow = false ∧ (inCall .decrypt 5 2).landed.fetch = some (.control 0b1101#4) ∧
        decode (.control 0b1101#4) = .ok (.rndd 5#3) ∧ (inCall .decrypt 5 2).busy = true) ∧
      (offered (idle 10) [0x02, 0x00]).resetNow = false ∧ (offered (idle 10) [0x02, 0x00]).landed.fetch = some (.frame [0x02, 0x00]) ∧
        decode (.frame [0x02, 0x00]) = .ok (.enc []) ∧ (offered (idle 10) [0x02, 0x00]).busy = false := by decide
theorem test_witness_OneHostActionLandsPerStep :
    (idle 10).host = [] ∧ ({ idle 10 with host := [.quiet, .reset] } : State).host = .quiet :: [.reset] ∧
      ({ idle 10 with host := [.offer [], .reset] } : State).host = .offer [] :: [.reset] := by decide
theorem test_witness_BusyStepRunsTheScheduledRound :
    ((inCall .encrypt 7 7).resetNow = false ∧ (inCall .encrypt 7 7).busy = true ∧ (inCall .encrypt 7 7).call.rc ≠ 8#4 ∧
        (inCall .encrypt 7 7).call.dir = .encrypt) ∧
      (inCall .decrypt 7 0).resetNow = false ∧ (inCall .decrypt 7 0).busy = true ∧ (inCall .decrypt 7 0).call.rc ≠ 8#4 ∧
        (inCall .decrypt 7 0).call.dir = .decrypt := by decide
theorem test_witness_CallEndsWithTheResponse :
    (inCall .decrypt 0 8).resetNow = false ∧ (inCall .decrypt 0 8).busy = true ∧ (inCall .decrypt 0 8).call.rc = 8#4 := by decide
theorem test_witness_IdleStepDoesNothing :
    (idle 10).resetNow = false ∧ (idle 10).busy = false ∧ (idle 10).landed.waiting = [] := by decide
theorem test_witness_BusyStepTakesNoCommand :
    ∃ t, ({ inCall .encrypt 7 8 with host := [.offer [0x05]] } : State).resetNow = false ∧
      ({ inCall .encrypt 7 8 with host := [.offer [0x05]] } : State).busy = true ∧
      step { inCall .encrypt 7 8 with host := [.offer [0x05]] } = .next t := ⟨_, rfl, rfl, rfl⟩
theorem test_witness_ResetAbandonsTheCommand :
    ({ inCall .encrypt 3 3 with host := [.reset, .quiet] } : State).host = .reset :: [.quiet] := rfl
theorem test_witness_ResetStateIsTheResetView :
    ∃ t, ({ inCall .encrypt 3 3 with host := [.reset] } : State).host = .reset :: [] ∧
      step { inCall .encrypt 3 3 with host := [.reset] } = .next t := ⟨_, rfl, rfl⟩
theorem test_witness_PlacedWordRunsNext :
    decodeTableWord 8 0x01 = some (.init 0 [] []) ∧ decodeTableWord 4 15 = some (.rndd 7) := by decide
theorem test_witness_BoundsOfEveryRadix : (2 ≤ 2 ∧ 2 ≤ 36) ∧ 2 ≤ 36 ∧ 36 ≤ 36 := by decide
theorem test_witness_MinLenIsTheLeastPower : 2 ≤ 2 ∧ 1000000 ≤ 2 ^ 20 := by decide
theorem test_witness_MaxLenIsTwiceTheGreatestPower : 2 ≤ 2 ∧ 2 ^ 96 ≤ 2 ^ 96 := by decide
/-- The last number that fits four binary digits and the first that does not. -/
theorem test_witness_StrSpellsOrIsTooLarge : 2 ≤ 2 ∧ 2 ^ 4 ≤ 16 ∧ 15 < 2 ^ 4 := by decide
theorem test_witness_KeyVariantIsTheKeySize : keyVariant 16 = .ok .bits128 ∧ keyVariant 32 = .ok .bits256 ∧
    17 ≠ 16 ∧ 17 ≠ 24 ∧ 17 ≠ 32 := by decide
theorem test_witness_SymbolsAreTheLowerCaseAlphabet :
    symbolDigit 0x39 = some 9 ∧ symbolDigit 0x61 = some 10 ∧ symbolDigit 0x3a = none ∧ symbolDigit 0x60 = none ∧
      radixDigit 10 0x39 = some 9 ∧ radixDigit 10 0x61 = none ∧ 35 < 36 := by decide
theorem test_witness_CheckDigitsIsExact :
    checkDigits 11 (sym "9a") = .ok [9, 10] ∧ checkDigits 10 (sym "9a") = .error .invalidDigitForRadix := by decide
theorem test_witness_ExpandIsTheCanonicalTweak :
    t1.length = 8 ∧ t3.length = 7 ∧ expand t3 = expand t3 ∧ ([] : Bytes).length ≠ 7 ∧ ([] : Bytes).length ≠ 8 := by decide
theorem test_witness_ExpandedTweakBuildsTheSameContext : expand t3 = .ok tw3 := by decide
theorem test_witness_NumIsThePositionalSum : ∀ d ∈ [9, 0, 9], d < 10 := by decide
theorem test_witness_BytesAreMinimalBigEndian : toFixedBytes 256 = [1, 0] ∧ toFixedBytes 0 = [] := by decide
theorem test_witness_BigEndianIsThePositionalSum : (List.replicate 16 0xff#8).length = 16 := by decide
theorem test_witness_EmodIsTheEuclideanRemainder : 1 ≤ 1 ∧ emod (-7) 1 = 0 ∧ Int.tmod (-7) 3 < 0 ∧ 0 ≤ Int.tmod 7 3 := by decide
theorem test_witness_CodecInverseLaws : 2 ≤ 2 ∧ 15 < 2 ^ 4 ∧ (∀ d ∈ [1, 0, 1], d < 2) ∧ 1 ≤ 1 := by decide
/-- The longest half of radix 2, whose value is 2**96 - 1. -/
theorem test_witness_RoundBlockHoldsTweakIndexAndHalf :
    2 ≤ 2 ∧ 2 ≤ 36 ∧ (∀ d ∈ List.replicate 96 1, d < 2) ∧ (List.replicate 96 1).length ≤ maxLength 2 / 2 ∧
      num 2 (rev (List.replicate 96 1)) = 2 ^ 96 - 1 := by decide +kernel
theorem test_witness_QueryAndAnswerAreByteReversed : 0 < 16 ∧ 15 < 16 ∧ answerValue (block (2 ^ 120)) = 1 := by decide
theorem test_witness_ParitySelectsTweakHalfAndLength : (0#3).toNat % 2 = 0 ∧ (7#3).toNat % 2 = 1 := by decide
/-- Both directions, with a difference below 0. -/
theorem test_witness_RoundFoldsByEuclideanRemainder :
    1 ≤ 10 ∧
      1 = emod ((num 10 (rev [0, 0, 0]) : Int) + (answerValue (oneOracle [] (roundQuery 0 tw1 10 [])) : Int)) (10 ^ halfLength 0 3 3) ∧
      999 = emod ((num 10 (rev [0, 0, 0]) : Int) - (answerValue (oneOracle [] (roundQuery 0 tw1 10 [])) : Int)) (10 ^ halfLength 0 3 3) := by
  decide
/-- The last round of an encryption, where RI is not written. -/
theorem test_witness_RndeIsOneEncryptRound :
    1 ≤ (inCall .encrypt 7 7).ctx.radix.toNat ∧ (inCall .encrypt 7 7).call.dir = .encrypt ∧ (inCall .encrypt 7 7).call.ri = 7#3 ∧
      (inCall .encrypt 7 7).call.a.length = halfLength 7 3 3 ∧ (inCall .encrypt 7 7).call.u = 3#8 ∧
      (inCall .encrypt 7 7).call.v = 3#8 ∧
      (inCall .encrypt 7 7).call.b.length = (inCall .encrypt 7 7).call.n.toNat - halfLength 7 3 3 := by decide
/-- The first round of a decryption, and for the last clause the round RNDE 7 that left this A. -/
theorem test_witness_RnddIsOneDecryptRound :
    (1 ≤ (inCall .decrypt 7 0).ctx.radix.toNat ∧ (inCall .decrypt 7 0).call.dir = .decrypt ∧ (inCall .decrypt 7 0).call.ri = 7#3 ∧
      (inCall .decrypt 7 0).call.b.length = halfLength 7 3 3 ∧ (inCall .decrypt 7 0).call.u = 3#8 ∧
      (inCall .decrypt 7 0).call.v = 3#8 ∧
      (inCall .decrypt 7 0).call.a.length = (inCall .decrypt 7 0).call.n.toNat - halfLength 7 3 3) ∧
      ∃ s' t' : State, exec (.rnde 7) s' = .next t' ∧ t'.ctx = (inCall .decrypt 7 0).ctx ∧
        t'.call.tw = (inCall .decrypt 7 0).call.tw ∧ t'.call.a = (inCall .decrypt 7 0).call.a :=
  ⟨by decide, { inCall .encrypt 7 7 with call := { (inCall .encrypt 7 7).call with b := digits "123" } }, _, rfl, rfl, rfl, rfl⟩
/-- The stop of RoundStopsOnlyOnModulusZero needs a radix 0 and a half that is not empty, in a state no run reaches. -/
theorem test_witness_RoundStopsOnlyOnModulusZero :
    ({ State.reset with call := { CallRegs.reset with u := 1#8 } } : State).ctx.radix.toNat ^ halfLength 0 1 0 = 0 ∧
      (inCall .encrypt 0 0).ctx.radix.toNat ^ halfLength 0 3 3 ≠ 0 := by decide

def params : CallParams := { k := [], r := 10, u := 3, v := 3, tw := tw1 }

theorem test_witness_RoundsUndoEachOther :
    1 ≤ params.r ∧ [0, 0, 0].length = halfLength 7 params.u params.v ∧ (∀ d ∈ [0, 0, 0], d < params.r) ∧
      params.round oneOracle .encrypt 7 { a := [0, 0, 0], b := [4, 0, 0] } = some { a := [4, 0, 0], b := [1, 0, 0] } ∧
      params.round oneOracle .decrypt 7 { a := [4, 0, 0], b := [0, 0, 0] } = some { a := [9, 9, 9], b := [4, 0, 0] } := by decide
theorem test_witness_InitBuildsTheContext :
    (keyVariant k1.length = .ok .bits128 ∧ 2 ≤ (2#8).toNat ∧ (2#8).toNat ≤ 36 ∧ expand t1 = .ok tw1) ∧
      keyVariant (k1 ++ k1).length = .ok .bits256 ∧ 2 ≤ (36#8).toNat ∧ (36#8).toNat ≤ 36 ∧ expand t3 = .ok tw3 := by decide
/-- One witness for each of the clauses: key length, radix (both ends), tweak length. -/
theorem test_witness_InitFailsByItsFirstFailingCheck :
    ([0#8].length ≠ 16 ∧ [0#8].length ≠ 24 ∧ [0#8].length ≠ 32 ∧ 0x01#8 = 0x01#8) ∧
      (k1.length = 16 ∧ (1#8).toNat < 2 ∧ 36 < (37#8).toNat ∧ 0x02#8 = 0x02#8) ∧
      k1.length = 16 ∧ 2 ≤ (36#8).toNat ∧ (36#8).toNat ≤ 36 ∧ (bytes 6 0).length ≠ 7 ∧ (bytes 6 0).length ≠ 8 ∧
        0x04#8 = 0x04#8 := by decide
theorem test_witness_FailedInitUnconfigures :
    ∃ t, exec (.init 1#8 k1 t1) (idle 10) = .next t ∧ t.sent = (idle 10).sent ++ [.response [ErrorKind.invalidRadix.code]] ∧
      transformRequest (.dect [] t3) = some (.decrypt, [], some t3) := ⟨_, rfl, rfl, rfl⟩
/-- The shortest and the longest message of radix 36. -/
theorem test_witness_EncAndDecStartACall :
    ((idle 36).valid = true ∧ (idle 36).ctx.minLen.toNat ≤ (sym "zzzz").length ∧ (sym "zzzz").length ≤ (idle 36).ctx.maxLen.toNat ∧
        checkDigits (idle 36).ctx.radix.toNat (sym "zzzz") = .ok [35, 35, 35, 35]) ∧
      (idle 36).ctx.minLen.toNat ≤ (List.replicate 36 0x7a#8).length ∧ (List.replicate 36 0x7a#8).length ≤ (idle 36).ctx.maxLen.toNat ∧
        checkDigits (idle 36).ctx.radix.toNat (List.replicate 36 0x7a#8) = .ok (List.replicate 36 35) := by decide
theorem test_witness_EnctAndDectStartACall :
    (idle 36).valid = true ∧ expand t3 = .ok tw3 ∧ (idle 36).ctx.minLen.toNat ≤ (sym "00z0").length ∧
      (sym "00z0").length ≤ (idle 36).ctx.maxLen.toNat ∧
      checkDigits (idle 36).ctx.radix.toNat (sym "00z0") = .ok [0, 0, 35, 0] := by decide
/-- One witness for each of the clauses: no context, tweak length, message length (both ends), digits. -/
theorem test_witness_TransformFailsByItsFirstFailingCheck :
    (transformRequest (.enct (sym "12345a") t3) = some (.encrypt, sym "12345a", some t3) ∧ State.reset.valid = false) ∧
      ((idle 10).valid = true ∧ (bytes 6 0).length ≠ 7 ∧ (bytes 6 0).length ≠ 8) ∧
      (t3.length = 7 ∧ (sym "12345").length < (idle 10).ctx.minLen.toNat ∧
        (idle 10).ctx.maxLen.toNat < (List.replicate 57 0x31#8).length) ∧
      (idle 10).ctx.minLen.toNat ≤ (sym "12345a").length ∧ (sym "12345a").length ≤ (idle 10).ctx.maxLen.toNat ∧
        ∃ b ∈ sym "12345a", ∀ d ∈ List.range 10, symbolDigit b ≠ some d := by decide
theorem test_witness_ContextTweakAsOverrideIsNoChange :
    (idle 10).valid = true ∧ expand t1 = .ok (idle 10).ctx.t ∧ ({ idle 10 with ctx := { ctx 10 with t := tw3 } } : State).valid = true ∧
      expand t3 = .ok ({ idle 10 with ctx := { ctx 10 with t := tw3 } } : State).ctx.t := by decide

/-- The contexts of radix 2, 10 and 36 are legal. -/
theorem ctx_legal {r : Nat} (h1 : 2 ≤ r) (h2 : r ≤ 36) : (ctx r).Legal :=
  Laws.newContext_legal h1 h2 (by decide)

/-- The shortest message of radix 36 and the longest of
radix 2. -/
theorem test_witness_EncryptAndDecryptAreInverse :
    ((ctx 36).Legal ∧ (ctx 36).minLen.toNat ≤ [35, 0, 35, 35].length ∧ [35, 0, 35, 35].length ≤ (ctx 36).maxLen.toNat ∧
        ∀ d ∈ [35, 0, 35, 35], d < (ctx 36).radix.toNat) ∧
      (ctx 2).Legal ∧ (ctx 2).minLen.toNat ≤ (List.replicate 192 1).length ∧
        (List.replicate 192 1).length ≤ (ctx 2).maxLen.toNat ∧ ∀ d ∈ List.replicate 192 1, d < (ctx 2).radix.toNat :=
  ⟨⟨ctx_legal (by decide) (by decide), by decide, by decide, by decide⟩, ctx_legal (by decide) (by decide), by decide +kernel, by decide +kernel,
    by decide +kernel⟩
theorem test_witness_TransformPermutesEachLength :
    ((ctx 36).Legal ∧ (ctx 36).minLen.toNat ≤ 4 ∧ 4 ≤ (ctx 36).maxLen.toNat) ∧
      (ctx 2).Legal ∧ (ctx 2).minLen.toNat ≤ 192 ∧ 192 ≤ (ctx 2).maxLen.toNat :=
  ⟨⟨ctx_legal (by decide) (by decide), by decide, by decide⟩, ctx_legal (by decide) (by decide), by decide, by decide⟩
/-- A frame waiting and another offered in the third step. -/
theorem test_witness_MachineRunsTheWholeTransform :
    ∃ (s : State) (y : Digits) (qs : List Block),
      s.busy = false ∧ s.waiting = (0x02#8 :: 0x06#8 :: sym "123456") :: [] ∧ (∀ a ∈ s.host.take 10, a ≠ .reset) ∧
        decodeFrame (0x02#8 :: 0x06#8 :: sym "123456") = .ok (.enc (sym "123456")) ∧
        transformRequest (.enc (sym "123456")) = some (.encrypt, sym "123456", none) ∧
        transformChecks s.valid s.ctx (sym "123456") none = .ok (tw1, digits "123456") ∧
        transform Config.ciph s.ctx .encrypt tw1 (digits "123456") = some (y, qs) :=
  ⟨{ offered (idle 10) (0x02#8 :: 0x06#8 :: sym "123456") with host := [.quiet, .quiet, .offer []] }, _, _,
    rfl, rfl, by decide, by decide, rfl, by decide, rfl⟩
/-- A step of INIT on a configured engine, and a reset. -/
theorem test_witness_ContextChangesOnlyByInitOrReset :
    (∃ t, step (offered (idle 10) [0x01, 0x0a, 0x00, 0x00]) = .next t ∧ (offered (idle 10) [0x01, 0x0a, 0x00, 0x00]).valid = true ∧
        t.valid ≠ (offered (idle 10) [0x01, 0x0a, 0x00, 0x00]).valid) ∧
      ∃ t, step { idle 10 with host := [.reset] } = .next t ∧ (idle 10).valid = true ∧ t.valid ≠ (idle 10).valid :=
  ⟨⟨_, rfl, rfl, by decide⟩, ⟨_, rfl, rfl, by decide⟩⟩
/-- The end of a call. -/
theorem test_witness_StepSendsAtMostOneThing : ∃ t, step (inCall .encrypt 7 8) = .next t := ⟨_, rfl⟩
/-- A round, with a frame offered in the same step. -/
theorem test_witness_EveryCommandIsAnsweredOnce :
    ∃ t, ({ inCall .encrypt 0 0 with host := [.offer [0x05]] } : State).resetNow = false ∧
      step { inCall .encrypt 0 0 with host := [.offer [0x05]] } = .next t := ⟨_, rfl, rfl⟩

/-- Well-kept: unconfigured, configured, and in a call at its first, an inner and its last step. -/
theorem idle_inv : (idle 10).Inv :=
  ⟨fun _ => ctx_legal (by decide) (by decide), nofun, nofun⟩
theorem inCall_inv {dir : Dir} {ri : BitVec 3} {rc : BitVec 4} (hrc : rc.toNat ≤ 8) (hri : ri.toNat = roundAfter dir rc.toNat) :
    (inCall dir ri rc).Inv where
  context _ := ctx_legal (by decide) (by decide)
  configured _ := rfl
  call _ :=
    { n_min := show (ctx 10).minLen.toNat ≤ 6 by decide
      n_max := show 6 ≤ (ctx 10).maxLen.toNat by decide
      u_eq := show (BitVec.ofNat 8 3).toNat = halfUp 6 by decide
      v_eq := show (BitVec.ofNat 8 3).toNat = 6 - halfUp 6 by decide
      rc_max := hrc
      ri_eq := hri
      a_length := (ite_self 3).symm
      b_length := (ite_self 3).symm
      a_digits := show ∀ d ∈ digits "123", d < (ctx 10).radix.toNat by decide
      b_digits := show ∀ d ∈ digits "456", d < (ctx 10).radix.toNat by decide }

/-- The three kinds of response, each sent from a well-kept state: an error, INIT's bounds, a transform's end. -/
theorem test_witness_ResponsesHaveTheirFormats :
    (∃ t, (idle 10).Inv ∧ step (offered (idle 10) []) = .next t ∧ t.sent = (idle 10).sent ++ [.response [0x09#8]]) ∧
      (∃ t, step (offered (idle 10) (0x01#8 :: 0x0a#8 :: 0x10#8 :: 0x08#8 :: (k1 ++ t1))) = .next t ∧
        t.sent = (idle 10).sent ++ [.response [0x00#8, 0x06#8, 0x38#8]]) ∧
      ∃ t, (inCall .encrypt 7 8).Inv ∧ step (inCall .encrypt 7 8) = .next t ∧
        t.sent = (inCall .encrypt 7 8).sent ++ [.response (0x00#8 :: 0x06#8 :: sym "123456")] :=
  ⟨⟨_, idle_inv, rfl, by decide⟩, ⟨_, rfl, by decide⟩, ⟨_, inCall_inv (by decide) (by decide), rfl, by decide⟩⟩
theorem test_witness_WellKeptStatesNeverStop : (inCall .encrypt 3 3).Inv ∧ (idle 10).Inv :=
  ⟨inCall_inv (by decide) (by decide), idle_inv⟩
/-- The first round, the last round and the end of a call. -/
theorem test_witness_StepKeepsTheState :
    (∃ t, (inCall .encrypt 0 0).Inv ∧ step (inCall .encrypt 0 0) = .next t) ∧
      (∃ t, (inCall .decrypt 0 7).Inv ∧ step (inCall .decrypt 0 7) = .next t) ∧
      ∃ t, (inCall .decrypt 0 8).Inv ∧ step (inCall .decrypt 0 8) = .next t :=
  ⟨⟨_, inCall_inv (by decide) (by decide), rfl⟩, ⟨_, inCall_inv (by decide) (by decide), rfl⟩, ⟨_, inCall_inv (by decide) (by decide), rfl⟩⟩
/-- Two unconfigured states that differ in CTX, the call registers and the count of free values. -/
theorem test_witness_UnreadableRegistersAreNeverRead :
    ∃ s s' t : State, s ≠ s' ∧ s.SameView s' ∧ step s = .next t :=
  ⟨offered State.reset [0x02, 0x00],
    { offered State.reset [0x02, 0x00] with ctx := ctx 10, call := splitCall .decrypt tw1 [1], drawn := 3 }, _, by decide,
    ⟨rfl, rfl, rfl, rfl, rfl, fun h => absurd h (by decide), fun h => absurd h (by decide)⟩, rfl⟩

end Sys2Proof.Tests
end

/-! PROOFS. The state (10_state.md): what a step runs, what starts a call, what changes the context, what stays
well-kept and what can be told from outside. -/

namespace Sys2Proof.Proofs

open Sys2Proof.Machine Sys2Proof.Laws

/-! ### What one step runs, case by case -/

section OneStep

variable {s : State} {f : Bytes} {rest : List Bytes}

theorem roundsDone_eq_false (h : s.call.rc ≠ 8#4) : s.roundsDone = false := by
  simp [State.roundsDone, h]

theorem step_of_round (hr : s.resetNow = false) (hb : s.busy = true) (hd : s.roundsDone = false) :
    step s = roundStep Config.ciph s.call.dir s.call.ri s.landed := by
  have hd' : s.landed.roundsDone = false := by simpa [State.roundsDone] using hd
  rw [step_of_not_resetNow hr]
  rcases engineTurn_cases s.landed with ⟨-, -, hturn⟩ | ⟨-, hdone, -⟩ | ⟨hidle, -⟩ | ⟨_, _, _, hidle, -⟩ |
    ⟨_, _, _, hidle, -⟩
  · rw [hturn, landed_call]
  · simp [hd'] at hdone
  all_goals simp [hb] at hidle

theorem step_of_roundsDone (hr : s.resetNow = false) (hb : s.busy = true) (hd : s.roundsDone = true) :
    step s = .next s.landed.finishTransform := by
  have hd' : s.landed.roundsDone = true := by simpa [State.roundsDone] using hd
  simp [step_of_not_resetNow hr, engineTurn, fetch_done (s := s.landed) (by simpa using hb) hd', hb]

theorem step_of_nothing_waiting (hr : s.resetNow = false) (hb : s.busy = false) (hw : s.landed.waiting = []) :
    step s = .next s.landed := by
  simp [step_of_not_resetNow hr, engineTurn, fetch_idle (s := s.landed) (by simpa using hb), hw, hb]

theorem step_of_illegal_frame {e : DecodeError} (hr : s.resetNow = false) (hb : s.busy = false)
    (hw : s.landed.waiting = f :: rest) (hf : decodeFrame f = .error e) :
    step s = .next ((s.landed.accept rest).raise .illegalFrame .illegalCommand) := by
  have hb' : s.landed.busy = false := by simpa using hb
  simp [step_of_not_resetNow hr, engineTurn, fetch_idle hb', fetched_of_idle hb', hw, decode, hf]

theorem step_of_command {i : Instr} (hr : s.resetNow = false) (hb : s.busy = false)
    (hw : s.landed.waiting = f :: rest) (hf : decodeFrame f = .ok i) :
    step s = exec i (s.landed.accept rest) := by
  have hb' : s.landed.busy = false := by simpa using hb
  simp [step_of_not_resetNow hr, engineTurn, fetch_idle hb', fetched_of_idle hb', hw, decode, hf]

end OneStep

/-! ### What a round does, and what the front part of a transform leaves unchanged -/

/-- A round that answers a next state has computed a half and moved it in. -/
theorem roundStep_next {ciph : Oracle} {dir : Dir} {i : BitVec 3} {s t : State} (h : roundStep ciph dir i s = .next t) :
    ∃ c, stateHalf ciph dir i s = some c ∧
      t = { s with call := s.call.roundMove dir i c, sent := s.sent ++ [.query s.ctx.key (stateQuery dir i s)] } := by
  rcases roundStep_cases ciph dir i s with ⟨c, hc, hn⟩ | ⟨-, hn⟩ <;> rw [hn] at h <;> cases h
  exact ⟨c, hc, rfl⟩

theorem roundStep_of_half {ciph : Oracle} {dir : Dir} {i : BitVec 3} {s : State} {c : Digits}
    (h : stateHalf ciph dir i s = some c) :
    roundStep ciph dir i s = .next
      { s with call := s.call.roundMove dir i c, sent := s.sent ++ [.query s.ctx.key (stateQuery dir i s)] } := by
  rw [roundStep, h]

theorem startTransform_keeps_context (dir : Dir) (sym : Bytes) (tweak : Option Bytes) (s : State) :
    (startTransform dir sym tweak s).valid = s.valid ∧ (startTransform dir sym tweak s).ctx = s.ctx := by
  rcases startTransform_cases dir sym tweak s with ⟨tw, x, -, -, -, -, -, h⟩ | ⟨e, -, h⟩ <;> rw [h]
  · exact ⟨rfl, rfl⟩
  · exact ⟨rfl, rfl⟩

/-! ### The scheduled round -/

/-- Settles O8: the sequencer's control word is the round that DIR and RI name. -/
theorem busyStepRunsTheScheduledRound : Obligations.BusyStepRunsTheScheduledRound := by
  intro s hr hb hrc
  have h := step_of_round hr hb (roundsDone_eq_false hrc)
  constructor <;> intro hdir <;> rw [h, hdir] <;> rfl

/-! ### Waiting frames in a call -/

/-- Settles O11: a busy step is a round or the end of the call, and neither touches the waiting frames. -/
theorem busyStepTakesNoCommand : Obligations.BusyStepTakesNoCommand := by
  intro s t hr hb h
  rw [← landed_waiting]
  cases hd : s.roundsDone with
  | false =>
    rw [step_of_round hr hb hd] at h
    obtain ⟨c, -, rfl⟩ := roundStep_next h
    rfl
  | true =>
    rw [step_of_roundsDone hr hb hd] at h
    cases h
    rfl

/-! ### The start of a call -/

theorem transformChecks_pass {valid : Bool} {ctx : Context} {sym : Bytes} {tweak : Option Bytes} {tw : Tweak}
    {x : Digits} (hv : valid = true) (ht : tweakInForce ctx tweak = .ok tw) (hmin : ctx.minLen.toNat ≤ sym.length)
    (hmax : sym.length ≤ ctx.maxLen.toNat) (hx : checkDigits ctx.radix.toNat sym = .ok x) :
    transformChecks valid ctx sym tweak = .ok (tw, x) := by
  have hlen : checkMessageLength sym.length ctx.minLen.toNat ctx.maxLen.toNat = .ok () := by
    simp [checkMessageLength]
    omega
  simp [transformChecks, hv, ht, hlen, hx, bind, Except.bind, pure, Except.pure]

/-- XFORM whose checks pass loads the call registers with the split of the message and sets BUSY (R170, R195). The
registers are written out with the number of symbols, which is the number of digits. -/
theorem startTransform_of_checks {s : State} {sym : Bytes} {tweak : Option Bytes} {tw : Tweak} {x : Digits}
    (dir : Dir) (hv : s.valid = true) (ht : tweakInForce s.ctx tweak = .ok tw)
    (hmin : s.ctx.minLen.toNat ≤ sym.length) (hmax : sym.length ≤ s.ctx.maxLen.toNat)
    (hx : checkDigits s.ctx.radix.toNat sym = .ok x) :
    startTransform dir sym tweak s = { s with
      busy := true,
      call := { dir := dir, n := BitVec.ofNat 8 sym.length, u := BitVec.ofNat 8 ((sym.length + 1) / 2),
                v := BitVec.ofNat 8 (sym.length - (sym.length + 1) / 2), tw := tw,
                a := x.take ((sym.length + 1) / 2), b := x.drop ((sym.length + 1) / 2),
                ri := firstRound dir, rc := 0#4 } } := by
  simp [startTransform, transformChecks_pass hv ht hmin hmax hx, splitCall, halfUp, (checkDigits_ok hx).1]

/-- Settles O43: with no override the tweak in force is the context's. -/
theorem encAndDecStartACall : Obligations.EncAndDecStartACall := by
  intro s sym x hv hmin hmax hx
  have start (dir : Dir) := startTransform_of_checks (tweak := none) dir hv rfl hmin hmax hx
  exact ⟨congrArg _ (start .encrypt), congrArg _ (start .decrypt)⟩

/-- Settles O44: the tweak in force is the expanded override. -/
theorem enctAndDectStartACall : Obligations.EnctAndDectStartACall := by
  intro s sym tweak T x hv ht hmin hmax hx
  have start (dir : Dir) := startTransform_of_checks (tweak := some tweak) dir hv ht hmin hmax hx
  exact ⟨congrArg _ (start .encrypt), congrArg _ (start .decrypt)⟩

/-! ### What changes the context -/

/-- Settles O50: of everything a step can do, only reset and INIT write VALID or CTX. -/
theorem contextChangesOnlyByInitOrReset : Obligations.ContextChangesOnlyByInitOrReset := by
  intro s t h _ hchange
  have kept (hv : t.valid = s.landed.valid) (hc : t.ctx = s.landed.ctx) : False :=
    hchange.elim (· (hv.trans (landed_valid s))) (· (hc.trans (landed_ctx s)))
  rcases step_cases h with ⟨hreset, -⟩ | ⟨-, ⟨-, -, hround⟩ | ⟨-, -, rfl⟩ | ⟨-, -, rfl⟩ |
    ⟨f, rest, e, -, -, -, rfl⟩ | ⟨f, rest, radix, key, tweak, hb, hw, hf, -⟩ |
    ⟨f, rest, i, dir, sym, tweak, -, -, -, -, rfl⟩⟩
  · exact .inl hreset
  · obtain ⟨c, -, rfl⟩ := roundStep_next hround
    exact (kept rfl rfl).elim
  · exact (kept rfl rfl).elim
  · exact (kept rfl rfl).elim
  · exact (kept rfl rfl).elim
  · exact .inr ⟨hb, f, rest, radix, key, tweak, hw, hf⟩
  · obtain ⟨hv, hc⟩ := startTransform_keeps_context dir sym tweak (s.landed.accept rest)
    exact (kept hv hc).elim

/-! ### The invariant, operation by operation -/

section Invariant

variable {s : State}

/-- With no call in progress a legal context is all the invariant asks. -/
theorem inv_of_idle (hb : s.busy = false) (hc : s.valid = true → s.ctx.Legal) : s.Inv where
  context := hc
  configured h := by simp [hb] at h
  call h := by simp [hb] at h

theorem landed_inv (h : s.Inv) : s.landed.Inv where
  context := by simpa using h.context
  configured := by simpa using h.configured
  call := by simpa using h.call

theorem assertReset_inv (s : State) : s.assertReset.Inv := inv_of_idle rfl nofun

theorem finishTransform_inv (h : s.Inv) : s.finishTransform.Inv := inv_of_idle rfl h.context

/-- Every error ends its command, and keeps the context or makes it invalid (R225). -/
theorem raise_inv (w : Failing) (e : ErrorKind) (hc : s.valid = true → s.ctx.Legal) : (s.raise w e).Inv := by
  refine inv_of_idle (raise_busy w e s) ?_
  cases w with
  | illegalFrame => exact hc
  | init => exact nofun
  | transform => exact hc

theorem initCommand_inv (radix : Byte) (key tweak : Bytes) (hc : s.valid = true → s.ctx.Legal) :
    (initCommand radix key tweak s).Inv := by
  rcases initCommand_cases radix key tweak s with ⟨v, t, -, hk, h1, h2, -, h⟩ | ⟨e, h, -⟩ <;> rw [h]
  · exact inv_of_idle rfl fun _ => newContext_legal h1 h2 hk
  · exact raise_inv _ _ hc

/-- The front part of a transform splits a message whose length and digits its checks found legal, or raises. -/
theorem startTransform_inv (dir : Dir) (sym : Bytes) (tweak : Option Bytes) (hc : s.valid = true → s.ctx.Legal) :
    (startTransform dir sym tweak s).Inv := by
  rcases startTransform_cases dir sym tweak s with ⟨tw, x, hv, -, hmin, hmax, hx, h⟩ | ⟨e, -, h⟩ <;> rw [h]
  · obtain ⟨hlen, hdigits⟩ := checkDigits_ok hx
    have := legal_minLen (hc hv)
    have hlegal : (splitCall dir tw x).Legal s.ctx := splitCall_legal (by omega) (by omega) (by omega) hdigits
    exact ⟨hc, fun _ => hv, fun _ => hlegal⟩
  · exact raise_inv _ _ hc

/-- The scheduled round of a call keeps the halves' lengths and digits, RC and RI legal (R29, R177). -/
theorem roundStep_inv {ciph : Oracle} {t : State} (h : s.Inv) (hb : s.busy = true) (hd : s.roundsDone = false)
    (hstep : roundStep ciph s.call.dir s.call.ri s = .next t) : t.Inv := by
  obtain ⟨c, hc, rfl⟩ := roundStep_next hstep
  have hrc : s.call.rc ≠ 8#4 := by simpa [State.roundsDone] using hd
  have hlegal := h.context (h.configured hb)
  obtain ⟨hlen, hdigits⟩ := stateHalf_cases (legal_radix_pos hlegal) hc
  exact ⟨h.context, h.configured, fun _ => roundMove_legal (h.call hb) hrc hlen hdigits⟩

end Invariant

/-- Settles O55: every one of the things a step can do keeps the invariant. -/
theorem stepKeepsTheState : Obligations.StepKeepsTheState := by
  intro s t hs h
  have hl := landed_inv hs
  rcases step_cases h with ⟨-, rfl⟩ | ⟨-, ⟨hb, hd, hround⟩ | ⟨-, -, rfl⟩ | ⟨-, -, rfl⟩ |
    ⟨f, rest, e, -, -, -, rfl⟩ | ⟨f, rest, radix, key, tweak, -, -, -, rfl⟩ |
    ⟨f, rest, i, dir, sym, tweak, -, -, -, -, rfl⟩⟩
  · exact assertReset_inv _
  · rw [← landed_call] at hround
    exact roundStep_inv hl (by simpa using hb) (by simpa [State.roundsDone] using hd) hround
  · exact finishTransform_inv hl
  · exact hl
  · exact raise_inv _ _ hl.context
  · exact initCommand_inv _ _ _ hl.context
  · exact startTransform_inv _ _ _ hl.context

/-! ### What cannot be told from outside, operation by operation -/

/-- Two states between commands that differ in nothing a command reads: `State.SameView` without the call registers and
with CTX while VALID = 1 only. Acceptance sets BUSY before a command writes the call registers, so this, and not
`State.SameView`, is what holds of the two states in which one command runs (R35). -/
structure SameForCommands (s t : State) : Prop where
  valid : s.valid = t.valid
  waiting : s.waiting = t.waiting
  sent : s.sent = t.sent
  host : s.host = t.host
  ctx : s.valid = true → s.ctx = t.ctx

section View

variable {s s' : State}

/-- With no call in progress `State.SameView` asks no more. -/
theorem sameView_of_idle (h : SameForCommands s s') (hb : s.busy = false) (hb' : s'.busy = false) : s.SameView s' where
  valid := h.valid
  busy := hb.trans hb'.symm
  waiting := h.waiting
  sent := h.sent
  host := h.host
  ctx hv := h.ctx (by simpa [hb] using hv)
  call hv := by simp [hb] at hv

theorem landed_sameView (h : s.SameView s') : s.landed.SameView s'.landed where
  valid := by simpa using h.valid
  busy := by simpa using h.busy
  waiting := by rw [landed_waiting, landed_waiting, h.waiting, h.host]
  sent := by simpa using h.sent
  host := by simp [h.host]
  ctx := by simpa using h.ctx
  call := by simpa using h.call

theorem accept_sameForCommands (rest : List Bytes) (h : s.SameView s') :
    SameForCommands (s.accept rest) (s'.accept rest) :=
  ⟨h.valid, rfl, h.sent, h.host, fun hv => h.ctx (.inl hv)⟩

theorem assertReset_sameView (h : s.SameView s') : s.assertReset.SameView s'.assertReset :=
  ⟨rfl, rfl, h.waiting, h.sent, h.host, fun _ => rfl, fun _ => rfl⟩

/-- The response of a call reads the call registers, and a call is in progress. -/
theorem finishTransform_sameView (h : s.SameView s') (hb : s.busy = true) :
    s.finishTransform.SameView s'.finishTransform := by
  refine sameView_of_idle ⟨h.valid, h.waiting, ?_, h.host, fun hv => h.ctx (.inl hv)⟩ rfl rfl
  simp [h.sent, h.call hb]

/-- An error's effects and answer read no register. -/
theorem raise_sameView (w : Failing) (e : ErrorKind) (h : SameForCommands s s') :
    (s.raise w e).SameView (s'.raise w e) := by
  have hsent := congrArg (· ++ [Event.response (responseRS e)]) h.sent
  cases w with
  | illegalFrame => exact sameView_of_idle ⟨h.valid, h.waiting, hsent, h.host, h.ctx⟩ rfl rfl
  | init => exact sameView_of_idle ⟨rfl, h.waiting, hsent, h.host, nofun⟩ rfl rfl
  | transform => exact sameView_of_idle ⟨h.valid, h.waiting, hsent, h.host, h.ctx⟩ rfl rfl

/-- INIT's checks and its new context come from its operands alone. -/
theorem initCommand_sameView (radix : Byte) (key tweak : Bytes) (h : SameForCommands s s') :
    (initCommand radix key tweak s).SameView (initCommand radix key tweak s') := by
  unfold initCommand
  split
  · exact raise_sameView _ _ h
  · exact sameView_of_idle ⟨rfl, h.waiting, by simp [h.sent], h.host, fun _ => rfl⟩ rfl rfl

/-- The checks of a transform ask VALID before they read CTX (R223). -/
theorem transformChecks_eq_of_sameForCommands (sym : Bytes) (tweak : Option Bytes) (h : SameForCommands s s') :
    transformChecks s.valid s.ctx sym tweak = transformChecks s'.valid s'.ctx sym tweak := by
  rw [← h.valid]
  cases hv : s.valid with
  | false => rfl
  | true => rw [h.ctx hv]

theorem startTransform_sameView (dir : Dir) (sym : Bytes) (tweak : Option Bytes) (h : SameForCommands s s') :
    (startTransform dir sym tweak s).SameView (startTransform dir sym tweak s') := by
  have hcheck := transformChecks_eq_of_sameForCommands sym tweak h
  rcases startTransform_cases dir sym tweak s with ⟨tw, x, hv, ht, hmin, hmax, hx, -⟩ | ⟨e, he, -⟩
  · have hok := transformChecks_pass hv ht hmin hmax hx
    simp only [startTransform, ← hcheck, hok]
    exact ⟨h.valid, rfl, h.waiting, h.sent, h.host, fun _ => h.ctx hv, fun _ => rfl⟩
  · simp only [startTransform, ← hcheck, he]
    exact raise_sameView _ _ h

/-- A round reads CTX and the call registers, and a call is in progress. -/
theorem roundStep_sameView {ciph : Oracle} {dir : Dir} {i : BitVec 3} {t : State} (h : s.SameView s')
    (hb : s.busy = true) (hstep : roundStep ciph dir i s = .next t) :
    ∃ t', roundStep ciph dir i s' = .next t' ∧ t.SameView t' := by
  have hctx := h.ctx (.inr hb)
  have hcall := h.call hb
  obtain ⟨c, hc, rfl⟩ := roundStep_next hstep
  have hc' : stateHalf ciph dir i s' = some c := by rw [← hc, stateHalf, stateHalf, hctx, hcall]
  have hquery : stateQuery dir i s = stateQuery dir i s' := by rw [stateQuery, stateQuery, hctx, hcall]
  refine ⟨_, roundStep_of_half hc', h.valid, h.busy, h.waiting, ?_, h.host, fun _ => hctx, fun _ => ?_⟩
  · simp only [h.sent, hctx, hquery]
  · simp only [hcall]

end View

/-- Settles O57: the second state takes the same of the cases a step has, and each of them keeps the view. -/
theorem unreadableRegistersAreNeverRead : Obligations.UnreadableRegistersAreNeverRead := by
  intro s s' t hview h
  have hl := landed_sameView hview
  have hreset : s'.resetNow = s.resetNow := by simp [State.resetNow, hview.host]
  have hdone (hb : s.busy = true) : s'.roundsDone = s.roundsDone := by simp [State.roundsDone, hview.call hb]
  rcases step_cases h with ⟨hr, rfl⟩ | ⟨hr, hcase⟩
  · exact ⟨_, step_of_resetNow (hreset.trans hr), assertReset_sameView hl⟩
  have hr' := hreset.trans hr
  rcases hcase with ⟨hb, hd, hround⟩ | ⟨hb, hd, rfl⟩ | ⟨hb, hw, rfl⟩ | ⟨f, rest, e, hb, hw, hf, rfl⟩ |
    ⟨f, rest, radix, key, tweak, hb, hw, hf, rfl⟩ | ⟨f, rest, i, dir, sym, tweak, hb, hw, hf, hreq, rfl⟩ <;>
    have hb' := hview.busy.symm.trans hb
  · rw [step_of_round hr' hb' ((hdone hb).trans hd), ← hview.call hb]
    exact roundStep_sameView hl (by simpa using hb) hround
  · exact ⟨_, step_of_roundsDone hr' hb' ((hdone hb).trans hd), finishTransform_sameView hl (by simpa using hb)⟩
  · exact ⟨_, step_of_nothing_waiting hr' hb' (hl.waiting.symm.trans hw), hl⟩
  · exact ⟨_, step_of_illegal_frame hr' hb' (hl.waiting.symm.trans hw) hf,
      raise_sameView _ _ (accept_sameForCommands rest hl)⟩
  · exact ⟨_, step_of_command hr' hb' (hl.waiting.symm.trans hw) hf,
      initCommand_sameView radix key tweak (accept_sameForCommands rest hl)⟩
  · exact ⟨_, (step_of_command hr' hb' (hl.waiting.symm.trans hw) hf).trans (exec_request hreq _),
      startTransform_sameView dir sym tweak (accept_sameForCommands rest hl)⟩

end Sys2Proof.Proofs

/-! PROOFS. What the engine shows the outside (20_memory.md R60): one step sends at most one event, and the steps of a
transform send what the transform as one indivisible step sends (R183). -/

namespace Sys2Proof.Proofs

open Sys2Proof.Machine Sys2Proof.Laws

/-! ### What one step sends -/

/-- INIT sends one response, whichever (R190). -/
theorem initCommand_sent (radix : Byte) (key tweak : Bytes) (s : State) :
    ∃ f, (initCommand radix key tweak s).sent = s.sent ++ [.response f] := by
  rcases initCommand_cases radix key tweak s with ⟨v, t, -, -, -, -, -, h⟩ | ⟨e, h, -⟩ <;> rw [h]
  · exact ⟨_, rfl⟩
  · exact ⟨_, raise_sent _ _ _⟩

/-- The front part of a transform sends nothing, or the response of its failing check (R195). -/
theorem startTransform_sent (dir : Dir) (sym : Bytes) (tweak : Option Bytes) (s : State) :
    (startTransform dir sym tweak s).sent = s.sent ∨
      ∃ f, (startTransform dir sym tweak s).sent = s.sent ++ [.response f] := by
  rcases startTransform_cases dir sym tweak s with ⟨tw, x, -, -, -, -, -, h⟩ | ⟨e, -, h⟩ <;> rw [h]
  · exact .inl rfl
  · exact .inr ⟨_, raise_sent _ _ _⟩

/-- Settles O51: reset, an idle step and a call's start send nothing; a round sends its query, and every other thing a
step can do sends one response. -/
theorem stepSendsAtMostOneThing : Obligations.StepSendsAtMostOneThing := by
  intro s t h
  rw [← landed_sent s]
  have nothing {u : State} (hu : u.sent = s.landed.sent) :
      ∃ es, u.sent = s.landed.sent ++ es ∧ es.length ≤ 1 := ⟨[], by simpa using hu, by simp⟩
  have one {u : State} {e : Event} (hu : u.sent = s.landed.sent ++ [e]) :
      ∃ es, u.sent = s.landed.sent ++ es ∧ es.length ≤ 1 := ⟨[e], hu, by simp⟩
  rcases step_cases h with ⟨-, rfl⟩ | ⟨-, ⟨-, -, hround⟩ | ⟨-, -, rfl⟩ | ⟨-, -, rfl⟩ |
    ⟨f, rest, e, -, -, -, rfl⟩ | ⟨f, rest, radix, key, tweak, -, -, -, rfl⟩ |
    ⟨f, rest, i, dir, sym, tweak, -, -, -, -, rfl⟩⟩
  · exact nothing rfl
  · obtain ⟨c, -, rfl⟩ := roundStep_next hround
    exact one rfl
  · exact one rfl
  · exact nothing rfl
  · exact one rfl
  · obtain ⟨f, hsent⟩ := initCommand_sent radix key tweak (s.landed.accept rest)
    exact one hsent
  · rcases startTransform_sent dir sym tweak (s.landed.accept rest) with hsent | ⟨f, hsent⟩
    · exact nothing hsent
    · exact one hsent

/-! ### The host's turns of several steps -/

/-- The state after the host's turns of `k` steps, were there no turn of the engine. -/
def hostTurns (k : Nat) (s : State) : State :=
  { s with host := s.host.drop k, waiting := s.waiting ++ offeredFrames (s.host.take k) }

/-- The host asserts no reset in the next `k` steps. -/
def NoReset (k : Nat) (actions : List HostAction) : Prop := ∀ a ∈ actions.take k, a ≠ .reset

theorem landed_eq_hostTurns (s : State) : s.landed = hostTurns 1 s := by
  have hw := landed_waiting s
  rcases landed_cases s with ⟨h, -⟩ | ⟨f, -, h⟩ <;> rw [h] at hw ⊢ <;> simp only [hostTurns, ← hw, List.drop_one]

theorem hostTurns_add (j k : Nat) (s : State) : hostTurns k (hostTurns j s) = hostTurns (j + k) s := by
  simp [hostTurns, offeredFrames, List.take_add]

theorem hostTurns_succ (k : Nat) (s : State) : hostTurns k (hostTurns 1 s) = hostTurns (k + 1) s := by
  rw [hostTurns_add, Nat.add_comm]

theorem noReset_succ {k : Nat} {s : State} (h : NoReset (k + 1) s.host) :
    s.resetNow = false ∧ NoReset k (hostTurns 1 s).host := by
  unfold NoReset State.resetNow hostTurns at *
  cases hs : s.host with
  | nil => simp
  | cons a rest => simpa [hs] using h

theorem noReset_add {j k : Nat} {actions : List HostAction} (h : NoReset (j + k) actions) :
    NoReset j actions ∧ NoReset k (actions.drop j) := by
  simpa [NoReset, List.take_add, or_imp, forall_and] using h

/-- A run of `j + k` steps is the run of its last `k` from where the first `j` end. -/
theorem runSteps_add {j : Nat} (k : Nat) {s t : State} (h : runSteps j s = .next t) :
    runSteps (j + k) s = runSteps k t := by
  induction j generalizing s with
  | zero =>
    cases h
    rw [Nat.zero_add]
  | succ j ih =>
    rw [Nat.succ_add]
    cases hstep : step s with
    | next u =>
      rw [runSteps_succ _ hstep] at h ⊢
      exact ih h
    | fault r => simp [runSteps, Host.Core.run, Sys2Proof.core, hstep] at h
    | refused r => simp [runSteps, Host.Core.run, Sys2Proof.core, hstep] at h

/-! ### A round of the machine is a round of the pure transform -/

/-- What a call in progress keeps through its rounds, in the pure transform's terms (R27). -/
def paramsOf (s : State) : CallParams :=
  { k := s.ctx.key, r := s.ctx.radix.toNat, u := s.call.u.toNat, v := s.call.v.toNat, tw := s.call.tw }

/-- The half registers of a call in progress (R28). -/
def halvesOf (q : CallRegs) : Halves := { a := q.a, b := q.b }

theorem query_eq_stateQuery (dir : Dir) (i : BitVec 3) (s : State) :
    (paramsOf s).query dir i (halvesOf s.call) = stateQuery dir i s := by
  cases dir <;> rfl

theorem round_eq_stateHalf (ciph : Oracle) (dir : Dir) (i : BitVec 3) (s : State) :
    (paramsOf s).round ciph dir i (halvesOf s.call) =
      (stateHalf ciph dir i s).map fun c => halvesOf (s.call.roundMove dir i c) := by
  cases dir <;> rfl

/-- A round moves its halves and writes RI and RC; the rest of the call stays (R172, R173). -/
theorem roundMove_eq (dir : Dir) (i : BitVec 3) (c : Digits) (q : CallRegs) :
    q.roundMove dir i c = { q with
      a := (halvesOf (q.roundMove dir i c)).a, b := (halvesOf (q.roundMove dir i c)).b,
      ri := nextRound dir i q.ri, rc := q.rc + 1#4 } := by
  cases dir <;> rfl

/-! ### The rounds of a call -/

/-- From RI and RC the scheduler of a direction has the rounds of a list still to run, in its order (R29). -/
def RoundsLeft (dir : Dir) : List (BitVec 3) → (ri : BitVec 3) → (rc : BitVec 4) → Prop
  | [], _, rc => rc = 8#4
  | i :: is, ri, rc => ri = i ∧ rc ≠ 8#4 ∧ RoundsLeft dir is (nextRound dir i ri) (rc + 1#4)

/-- A call starts with the whole schedule to run (R174, R175). -/
theorem roundsLeft_schedule (dir : Dir) : RoundsLeft dir (schedule dir) (firstRound dir) 0#4 := by
  cases dir <;> simp [RoundsLeft, schedule, firstRound, nextRound]

theorem schedule_length (dir : Dir) : (schedule dir).length = 8 := by cases dir <;> rfl

/-- The state after one step in a call: the host's turn, then round `i` with its query, its halves `h` moved in. -/
def afterRound (i : BitVec 3) (h : Halves) (s : State) : State :=
  { hostTurns 1 s with
    call := { s.call with a := h.a, b := h.b, ri := nextRound s.call.dir i s.call.ri, rc := s.call.rc + 1#4 }
    sent := s.sent ++ [.query s.ctx.key ((paramsOf s).query s.call.dir i (halvesOf s.call))] }

theorem step_eq_afterRound {s : State} {i : BitVec 3} {h : Halves} (hr : s.resetNow = false) (hb : s.busy = true)
    (hi : s.call.ri = i) (hrc : s.call.rc ≠ 8#4)
    (hround : (paramsOf s).round Config.ciph s.call.dir i (halvesOf s.call) = some h) :
    step s = .next (afterRound i h s) := by
  rw [round_eq_stateHalf] at hround
  obtain ⟨c, hc, rfl⟩ := Option.map_eq_some_iff.1 hround
  have hc' : stateHalf Config.ciph s.call.dir i (hostTurns 1 s) = some c := hc
  rw [step_of_round hr hb (roundsDone_eq_false hrc), hi, landed_eq_hostTurns, roundStep_of_half hc', afterRound,
    ← roundMove_eq, query_eq_stateQuery]
  rfl

/-- The machine runs the rounds left, one a step, and sends their queries in order (R182, R183). -/
theorem runSteps_rounds (is : List (BitVec 3)) {s : State} {h : Halves} {qs : List Block}
    (hr : NoReset is.length s.host) (hb : s.busy = true) (hleft : RoundsLeft s.call.dir is s.call.ri s.call.rc)
    (hrounds : (paramsOf s).rounds Config.ciph s.call.dir is (halvesOf s.call) = some (h, qs)) :
    ∃ q : CallRegs, q.rc = 8#4 ∧ q.n = s.call.n ∧ halvesOf q = h ∧
      runSteps is.length s = .next { hostTurns is.length s with
        call := q, sent := s.sent ++ qs.map (.query s.ctx.key) } := by
  induction is generalizing s qs with
  | nil =>
    cases hrounds
    exact ⟨s.call, hleft, rfl, rfl, by simp [runSteps_zero, hostTurns, offeredFrames]⟩
  | cons i is ih =>
    obtain ⟨hi, hrc, hleft⟩ := hleft
    obtain ⟨hr0, hr⟩ := noReset_succ hr
    rw [CallParams.rounds] at hrounds
    cases hround : (paramsOf s).round Config.ciph s.call.dir i (halvesOf s.call) with
    | none => simp [hround] at hrounds
    | some h' =>
      simp only [hround, Option.map_eq_some_iff, Prod.mk.injEq] at hrounds
      obtain ⟨⟨_, qs'⟩, hrounds, rfl, rfl⟩ := hrounds
      have hstep := step_eq_afterRound hr0 hb hi hrc hround
      obtain ⟨q, hq8, hqn, hqh, hrun⟩ := ih (s := afterRound i h' s) hr hb hleft hrounds
      refine ⟨q, hq8, hqn, hqh, ?_⟩
      rw [List.length_cons, runSteps_succ _ hstep, hrun, ← hostTurns_succ]
      simp [afterRound, hostTurns]

/-- One step of the machine in a call with no round left: the host's turn, then the response (R195). -/
theorem step_eq_finishTransform {s : State} (hr : NoReset 1 s.host) (hb : s.busy = true) (hrc : s.call.rc = 8#4) :
    step s = .next (hostTurns 1 s).finishTransform := by
  rw [step_of_roundsDone (noReset_succ hr).1 hb (by simp [State.roundsDone, hrc]), landed_eq_hostTurns]

/-- A call with rounds left runs them and then sends its response, one step for each (R174 to R176, R195). -/
theorem runSteps_call (is : List (BitVec 3)) {s : State} {h : Halves} {qs : List Block}
    (hr : NoReset (is.length + 1) s.host) (hb : s.busy = true)
    (hleft : RoundsLeft s.call.dir is s.call.ri s.call.rc)
    (hrounds : (paramsOf s).rounds Config.ciph s.call.dir is (halvesOf s.call) = some (h, qs)) :
    runSteps (is.length + 1) s = .next { hostTurns (is.length + 1) s with
      busy := false, call := Config.freeCall s.drawn, drawn := s.drawn + 1
      sent := s.sent ++ qs.map (.query s.ctx.key) ++ [.response (responseRM s.call.n (symbols (h.a ++ h.b)))] } := by
  obtain ⟨hr, hrlast⟩ := noReset_add hr
  obtain ⟨q, hq8, hqn, rfl, hrun⟩ := runSteps_rounds is hr hb hleft hrounds
  rw [runSteps_add 1 hrun, runSteps_succ 0 (step_eq_finishTransform ?_ ?_ ?_), runSteps_zero, ← hostTurns_add, ← hqn]
  · rfl
  · exact hrlast
  · exact hb
  · exact hq8

/-! ### The whole transform -/

/-- The message that passes the checks has a digit for each symbol, and its length fits N. -/
theorem transformChecks_length {valid : Bool} {ctx : Context} {sym : Bytes} {tweak : Option Bytes} {tw : Tweak}
    {x : Digits} (h : transformChecks valid ctx sym tweak = .ok (tw, x)) :
    x.length = sym.length ∧ x.length < 256 := by
  rcases transformChecks_cases valid ctx sym tweak with ⟨tw', x', -, -, -, hmax, hx, hok⟩ | ⟨-, herr⟩ | ⟨-, -, herr⟩ |
    ⟨_, -, -, -, herr⟩ | ⟨_, -, -, -, -, -, herr⟩
  · cases h.symm.trans hok
    obtain ⟨hlen, -⟩ := checkDigits_ok hx
    have := ctx.maxLen.isLt
    omega
  all_goals cases h.symm.trans herr

/-- The state after the step that accepts a transform's frame: the host's turn, the frame gone, the message split. -/
def afterAccept (rest : List Bytes) (dir : Dir) (tw : Tweak) (x : Digits) (s : State) : State :=
  { hostTurns 1 s with
    waiting := rest ++ offeredFrames (s.host.take 1), busy := true, call := splitCall dir tw x }

theorem step_eq_afterAccept {s : State} {f : Bytes} {rest : List Bytes} {i : Instr} {dir : Dir} {sym : Bytes}
    {tweak : Option Bytes} {tw : Tweak} {x : Digits} (hr : s.resetNow = false) (hb : s.busy = false)
    (hw : s.waiting = f :: rest) (hf : decodeFrame f = .ok i) (hreq : transformRequest i = some (dir, sym, tweak))
    (hchecks : transformChecks s.valid s.ctx sym tweak = .ok (tw, x)) :
    step s = .next (afterAccept rest dir tw x s) := by
  have hlanded : s.landed.waiting = f :: (rest ++ offeredFrames (s.host.take 1)) := by rw [landed_waiting, hw]; rfl
  rw [step_of_command hr hb hlanded hf, exec_request hreq, startTransform]
  simp [hchecks, afterAccept, landed_eq_hostTurns, hostTurns, State.accept]

/-- The split loads the registers with the parameters of the pure transform: U and V hold the halves' lengths. -/
theorem paramsOf_afterAccept (rest : List Bytes) (dir : Dir) (tw : Tweak) {x : Digits} (s : State)
    (h : x.length < 256) : paramsOf (afterAccept rest dir tw x s) = callParams s.ctx tw x.length := by
  obtain ⟨-, hu, hv⟩ := splitCall_toNat (dir := dir) (tw := tw) h
  rw [callParams, ← hv, ← hu]
  rfl

/-- Settles O49: one step accepts the frame and splits the message, eight run the schedule, and one responds. -/
theorem machineRunsTheWholeTransform : Obligations.MachineRunsTheWholeTransform := by
  intro s f rest i dir sym tweak tw x y qs hb hw hr hf hreq hchecks htransform
  obtain ⟨hr0, hr⟩ := noReset_succ (k := 9) hr
  have hstart := step_eq_afterAccept hr0 hb hw hf hreq hchecks
  obtain ⟨hlen, hlt⟩ := transformChecks_length hchecks
  obtain ⟨⟨h, _⟩, hrounds, hout⟩ := Option.map_eq_some_iff.1 htransform
  cases hout
  rw [← paramsOf_afterAccept rest dir tw s hlt] at hrounds
  have hcall := runSteps_call (schedule dir) (by rwa [schedule_length]) rfl (roundsLeft_schedule dir) hrounds
  rw [schedule_length] at hcall
  refine ⟨Config.freeCall s.drawn, s.drawn + 1, ?_⟩
  rw [runSteps_succ 9 hstart, hcall]
  simp [afterAccept, hostTurns, offeredFrames_take_succ s.host 9, hb, responseRM, statusOk, hlen]

end Sys2Proof.Proofs

/-! PROOFS. The encoding (30_encoding.md): each instruction has one code and each legal code one reading, which frames
are legal, what a step runs of a code, and the symbols. -/

namespace Sys2Proof.Proofs

open Sys2Proof.Machine Sys2Proof.Laws

/-! ### What the decoders of the three formats answer -/

theorem countable_of_length_eq {s : Bytes} {b : Byte} (h : s.length = b.toNat) : Countable s := h.trans_lt b.isLt

/-- A body of the length its two count bytes give splits into the two strings they count (R71, R74). -/
theorem counted_take_drop {rest : Bytes} {a b : Byte} (h : rest.length = a.toNat + b.toNat) :
    (Countable (rest.take a.toNat) ∧ Countable (rest.drop a.toNat)) ∧
      countByte (rest.take a.toNat) = a ∧ countByte (rest.drop a.toNat) = b := by
  have htake : (rest.take a.toNat).length = a.toNat := by simp; omega
  have hdrop : (rest.drop a.toNat).length = b.toNat := by simp; omega
  exact ⟨⟨countable_of_length_eq htake, countable_of_length_eq hdrop⟩, countByte_eq htake, countByte_eq hdrop⟩

/-- Format `I` (R71). -/
theorem decodeI_ok_iff {body : Bytes} {i : Instr} :
    decodeI body = .ok i ↔ ∃ radix key tweak, WellFormed (.init radix key tweak) ∧ i = .init radix key tweak ∧
      body = radix :: countByte key :: countByte tweak :: (key ++ tweak) := by
  constructor
  · intro h
    unfold decodeI at h
    split at h
    · next radix klen tlen rest =>
      split at h
      · next hlen =>
        cases h
        obtain ⟨hwf, hkey, htweak⟩ := counted_take_drop hlen
        exact ⟨radix, _, _, hwf, rfl, by rw [hkey, htweak, List.take_append_drop]⟩
      · cases h
    · cases h
  · rintro ⟨radix, key, tweak, ⟨hkey, htweak⟩, rfl, rfl⟩
    simp [decodeI, countByte_toNat hkey, countByte_toNat htweak]

/-- Format `M` (R73). -/
theorem decodeM_ok_iff {make : Bytes → Instr} {body : Bytes} {i : Instr} :
    decodeM make body = .ok i ↔ ∃ sym, Countable sym ∧ i = make sym ∧ body = countByte sym :: sym := by
  constructor
  · intro h
    unfold decodeM at h
    split at h
    · next n sym =>
      split at h
      · next hlen =>
        cases h
        exact ⟨sym, countable_of_length_eq hlen, rfl, by rw [countByte_eq hlen]⟩
      · cases h
    · cases h
  · rintro ⟨sym, hsym, rfl, rfl⟩
    simp [decodeM, countByte_toNat hsym]

/-- Format `MT` (R74). -/
theorem decodeMT_ok_iff {make : Bytes → Bytes → Instr} {body : Bytes} {i : Instr} :
    decodeMT make body = .ok i ↔ ∃ sym tweak, (Countable sym ∧ Countable tweak) ∧ i = make sym tweak ∧
      body = countByte sym :: countByte tweak :: (sym ++ tweak) := by
  constructor
  · intro h
    unfold decodeMT at h
    split at h
    · next n tlen rest =>
      split at h
      · next hlen =>
        cases h
        obtain ⟨hwf, hsym, htweak⟩ := counted_take_drop hlen
        exact ⟨_, _, hwf, rfl, by rw [hsym, htweak, List.take_append_drop]⟩
      · cases h
    · cases h
  · rintro ⟨sym, tweak, ⟨hsym, htweak⟩, rfl, rfl⟩
    simp [decodeMT, countByte_toNat hsym, countByte_toNat htweak]

/-- A frame that decodes has one of the five opcodes, and its format's decoder reads what follows it (R72). -/
theorem decodeFrame_ok_iff_body {f : Bytes} {i : Instr} :
    decodeFrame f = .ok i ↔ ∃ body,
      (f = 0x01#8 :: body ∧ decodeI body = .ok i) ∨ (f = 0x02#8 :: body ∧ decodeM .enc body = .ok i) ∨
        (f = 0x03#8 :: body ∧ decodeM .dec body = .ok i) ∨ (f = 0x06#8 :: body ∧ decodeMT .enct body = .ok i) ∨
        (f = 0x07#8 :: body ∧ decodeMT .dect body = .ok i) := by
  constructor
  · intro h
    cases f with
    | nil => cases h
    | cons opc body =>
      refine ⟨body, ?_⟩
      rw [decodeFrame] at h
      split_ifs at h with h1 h2 h3 h6 h7
      · exact .inl ⟨by rw [h1], h⟩
      · exact .inr (.inl ⟨by rw [h2], h⟩)
      · exact .inr (.inr (.inl ⟨by rw [h3], h⟩))
      · exact .inr (.inr (.inr (.inl ⟨by rw [h6], h⟩)))
      · exact .inr (.inr (.inr (.inr ⟨by rw [h7], h⟩)))
  · rintro ⟨body, ⟨rfl, h⟩ | ⟨rfl, h⟩ | ⟨rfl, h⟩ | ⟨rfl, h⟩ | ⟨rfl, h⟩⟩ <;> exact h

/-- The frames that decode are the encodings of the well-formed commands, and each decodes to its own command. -/
theorem decodeFrame_ok_iff {f : Bytes} {i : Instr} : decodeFrame f = .ok i ↔ WellFormed i ∧ encode i = .frame f := by
  rw [decodeFrame_ok_iff_body]
  simp only [decodeI_ok_iff, decodeM_ok_iff, decodeMT_ok_iff]
  constructor
  · rintro ⟨body, ⟨rfl, radix, key, tweak, hwf, rfl, rfl⟩ | ⟨rfl, sym, hwf, rfl, rfl⟩ | ⟨rfl, sym, hwf, rfl, rfl⟩ |
      ⟨rfl, sym, tweak, hwf, rfl, rfl⟩ | ⟨rfl, sym, tweak, hwf, rfl, rfl⟩⟩ <;> exact ⟨hwf, rfl⟩
  · rintro ⟨hwf, henc⟩
    cases i with cases henc
    | init radix key tweak => exact ⟨_, .inl ⟨rfl, radix, key, tweak, hwf, rfl, rfl⟩⟩
    | enc sym => exact ⟨_, .inr (.inl ⟨rfl, sym, hwf, rfl, rfl⟩)⟩
    | dec sym => exact ⟨_, .inr (.inr (.inl ⟨rfl, sym, hwf, rfl, rfl⟩))⟩
    | enct sym tweak => exact ⟨_, .inr (.inr (.inr (.inl ⟨rfl, sym, tweak, hwf, rfl, rfl⟩)))⟩
    | dect sym tweak => exact ⟨_, .inr (.inr (.inr (.inr ⟨rfl, sym, tweak, hwf, rfl, rfl⟩)))⟩

/-- The sixteen control words are the encodings of the sixteen rounds, and each decodes to its own round (R83). -/
theorem decodeControl_eq_iff {cw : BitVec 4} {i : Instr} : decodeControl cw = i ↔ encode i = .control cw := by
  have decode_encode : ∀ k : BitVec 3, decodeControl (0#1 ++ k) = .rnde k ∧ decodeControl (1#1 ++ k) = .rndd k := by
    decide
  have encode_decode : ∀ cw : BitVec 4, encode (decodeControl cw) = .control cw := by decide
  constructor
  · rintro rfl
    exact encode_decode cw
  · intro henc
    cases i with cases henc
    | rnde k => exact (decode_encode k).1
    | rndd k => exact (decode_encode k).2

/-- A code decodes to an instruction exactly when it is that well-formed instruction's encoding. -/
theorem decode_ok_iff {c : Code} {i : Instr} : decode c = .ok i ↔ WellFormed i ∧ encode i = c := by
  cases c with
  | frame f => exact decodeFrame_ok_iff
  | control cw =>
    have round_wf (henc : encode i = .control cw) : WellFormed i := by
      cases i <;> cases henc <;> trivial
    simp only [decode, Except.ok.injEq, decodeControl_eq_iff]
    exact ⟨fun h => ⟨round_wf h, h⟩, And.right⟩

/-- Settles O1: the encoding of a well-formed instruction is a code that decodes, and to no other instruction. -/
theorem decodeOfEncodeIsTheInstruction : Obligations.DecodeOfEncodeIsTheInstruction :=
  fun _ hwf => decode_ok_iff.2 ⟨hwf, rfl⟩

/-- Settles O2: of the codes that decode to an instruction only its encoding does, and only when it is well-formed. -/
theorem encodeOfDecodeIsTheCode : Obligations.EncodeOfDecodeIsTheCode :=
  fun _ _ h => (decode_ok_iff.1 h).symm

/-- Settles O4: the decoder evaluates on each of the seven codes. -/
theorem spelledWordsDecode : Obligations.SpelledWordsDecode := by
  refine ⟨?_, ?_, ?_, ?_, ?_, ?_, ?_⟩ <;> decide

/-- Settles O5: the assembler evaluates on each of the four lines. -/
theorem assemblerSpellingsOfOneCommand : Obligations.AssemblerSpellingsOfOneCommand := by
  refine ⟨?_, ?_, ?_, ?_⟩ <;> decide

/-! ### The legal frames -/

theorem ite_ok_iff {p : Prop} [Decidable p] {i : Instr} {e : DecodeError} :
    (∃ j, (if p then Except.ok i else .error e) = .ok j) ↔ p := by
  split <;> simp [*]

/-- A body of format `I` decodes when it is as long as its two length bytes say (R71, R90). -/
theorem decodeI_isOk_iff (body : Bytes) :
    (∃ i, decodeI body = .ok i) ↔
      ∃ klen tlen, body[1]? = some klen ∧ body[2]? = some tlen ∧ body.length = 3 + klen.toNat + tlen.toNat := by
  match body with
  | [] | [_] | [_, _] => simp [decodeI]
  | radix :: klen :: tlen :: rest =>
    simp [decodeI, ite_ok_iff]
    omega

/-- A body of format `M` decodes when it is as long as its length byte says (R73, R90). -/
theorem decodeM_isOk_iff (make : Bytes → Instr) (body : Bytes) :
    (∃ i, decodeM make body = .ok i) ↔ ∃ n, body[0]? = some n ∧ body.length = 1 + n.toNat := by
  match body with
  | [] => simp [decodeM]
  | n :: sym =>
    simp [decodeM, ite_ok_iff]
    omega

/-- A body of format `MT` decodes when it is as long as its two length bytes say (R74, R90). -/
theorem decodeMT_isOk_iff (make : Bytes → Bytes → Instr) (body : Bytes) :
    (∃ i, decodeMT make body = .ok i) ↔
      ∃ n tlen, body[0]? = some n ∧ body[1]? = some tlen ∧ body.length = 2 + n.toNat + tlen.toNat := by
  match body with
  | [] | [_] => simp [decodeMT]
  | n :: tlen :: rest =>
    simp [decodeMT, ite_ok_iff]
    omega

/-- R90's legal frames by their opcode: the body is one that the opcode's format decodes. -/
theorem legalFrame_cons (opc : Byte) (body : Bytes) :
    LegalFrame (opc :: body) ↔
      (opc = 0x01#8 ∧ ∃ i, decodeI body = .ok i) ∨ (opc = 0x02#8 ∧ ∃ i, decodeM .enc body = .ok i) ∨
        (opc = 0x03#8 ∧ ∃ i, decodeM .dec body = .ok i) ∨ (opc = 0x06#8 ∧ ∃ i, decodeMT .enct body = .ok i) ∨
        (opc = 0x07#8 ∧ ∃ i, decodeMT .dect body = .ok i) := by
  have hI (k : Nat) : body.length + 1 = 4 + k ↔ body.length = 3 + k := by omega
  have hM (k : Nat) : body.length + 1 = 2 + k ↔ body.length = 1 + k := by omega
  have hMT (k : Nat) : body.length + 1 = 3 + k ↔ body.length = 2 + k := by omega
  simp [LegalFrame, decodeI_isOk_iff, decodeM_isOk_iff, decodeMT_isOk_iff, Nat.add_assoc, hI, hM, hMT, or_and_right,
    or_assoc]

/-- The frames that decode are R90's legal ones. -/
theorem decodeFrame_isOk_iff (f : Bytes) : (∃ i, decodeFrame f = .ok i) ↔ LegalFrame f := by
  cases f with
  | nil => simp [decodeFrame, LegalFrame]
  | cons opc body =>
    rw [legalFrame_cons]
    simp only [decodeFrame_ok_iff_body, List.cons.injEq]
    constructor
    · rintro ⟨i, _, ⟨⟨rfl, rfl⟩, h⟩ | ⟨⟨rfl, rfl⟩, h⟩ | ⟨⟨rfl, rfl⟩, h⟩ | ⟨⟨rfl, rfl⟩, h⟩ | ⟨⟨rfl, rfl⟩, h⟩⟩ <;>
        simp [h]
    · rintro (⟨rfl, i, h⟩ | ⟨rfl, i, h⟩ | ⟨rfl, i, h⟩ | ⟨rfl, i, h⟩ | ⟨rfl, i, h⟩) <;> exact ⟨i, body, by simp [h]⟩

/-! ### What the engine runs of a code -/

/-- The machine is idle and an illegal frame is the oldest: it is answered, and the machine is idle again (R90). -/
theorem engineTurn_of_illegal_frame {s : State} {f : Bytes} {rest : List Bytes} {e : DecodeError}
    (hb : s.busy = false) (hw : s.waiting = f :: rest) (hf : decodeFrame f = .error e) :
    engineTurn s = .next { s with waiting := rest, sent := s.sent ++ [.response [0x09#8]] } := by
  simp [engineTurn, fetch_idle hb, fetched_of_idle hb, hw, decode, hf, raise_illegalFrame, State.answer, State.accept,
    hb, responseRS, ErrorKind.code]

/-- Settles O3: the decoder accepts R90's legal frames only, and the engine answers each error of the decoder alike. -/
theorem illegalFramesAreAnsweredIllegalCommand : Obligations.IllegalFramesAreAnsweredIllegalCommand := by
  intro s f rest hb hw
  refine ⟨decodeFrame_isOk_iff f, fun hillegal => ?_⟩
  cases hf : decodeFrame f with
  | ok i => exact absurd ((decodeFrame_isOk_iff f).1 ⟨i, hf⟩) hillegal
  | error e => exact engineTurn_of_illegal_frame hb hw hf

/-- Settles O6: the engine decodes what the sequencer fetches and runs it in the fetched state. -/
theorem stepRunsTheDecodedInstruction : Obligations.StepRunsTheDecodedInstruction := by
  intro s code i hr hfetch hcode
  refine ⟨?_, fun hb => fetched_of_busy (by simpa using hb), fun hb => fetched_of_idle (by simpa using hb)⟩
  rw [step_of_not_resetNow hr, engineTurn]
  simp only [hfetch, hcode]

/-! ### A placed code -/

theorem holdReset_head (actions : List HostAction) : (holdReset actions).head? ≠ some .reset := by
  cases actions with
  | nil => simp [holdReset]
  | cons a rest => cases a <;> simp [holdReset]

theorem withCode_resetNow (s : State) (c : Code) : (s.withCode c).resetNow = false := by
  cases c <;> simpa [State.withCode, State.resetNow] using holdReset_head s.host

theorem withCode_keeps (s : State) (c : Code) :
    (s.withCode c).valid = s.valid ∧ (s.withCode c).ctx = s.ctx ∧ (s.withCode c).sent = s.sent := by
  cases c <;> exact ⟨rfl, rfl, rfl⟩

/-- The scheduler placed at a control word's direction and round has that round to run: it gives the control word back,
and fewer than eight rounds come before it (R83). -/
theorem atRound_control (cw : BitVec 4) :
    (controlDir cw).bit ++ controlRound cw = cw ∧ roundsBefore (controlDir cw) (controlRound cw) ≠ 8#4 := by
  revert cw
  decide

/-- A placed code is what the sequencer fetches after the host's turn (R29, R196). -/
theorem withCode_fetch (s : State) (c : Code) : (s.withCode c).landed.fetch = some c := by
  cases c with
  | frame f =>
    have hb : (s.withCode (.frame f)).landed.busy = false := by simp [State.withCode]
    rw [fetch_idle hb, landed_waiting]
    rfl
  | control cw =>
    obtain ⟨hword, hrc⟩ := atRound_control cw
    have hb : (s.withCode (.control cw)).landed.busy = true := by simp [State.withCode]
    have hd : (s.withCode (.control cw)).landed.roundsDone = false :=
      roundsDone_eq_false (by simpa [State.withCode, CallRegs.atRound] using hrc)
    rw [fetch_round hb hd, State.controlWord, landed_call]
    exact congrArg (some ∘ Code.control) hword

/-- Settles O15: no reset lands in the step, and the placed code is fetched, so that its instruction runs. -/
theorem placedWordRunsNext : Obligations.PlacedWordRunsNext := by
  intro s nbits w i hw
  have hcode : decode (tableCode nbits w) = .ok i := by
    unfold decodeTableWord at hw
    split at hw
    · next j hj => rw [hj, Option.some.inj hw]
    · cases hw
  obtain ⟨hvalid, hctx, hsent⟩ := withCode_keeps s (tableCode nbits w)
  obtain ⟨hrun, -⟩ := stepRunsTheDecodedInstruction _ _ _ (withCode_resetNow s _) (withCode_fetch s _) hcode
  exact ⟨(s.withCode (tableCode nbits w)).landed.fetched, by simp, by simp [hvalid], by simp [hctx], by simp [hsent],
    hrun⟩

/-! ### Symbols -/

/-- The table of R76. -/
theorem symbolDigit_eq_some_iff (b : Byte) (d : Nat) :
    symbolDigit b = some d ↔
      (0x30 ≤ b.toNat ∧ b.toNat ≤ 0x39 ∧ d = b.toNat - 0x30) ∨
        (0x61 ≤ b.toNat ∧ b.toNat ≤ 0x7A ∧ d = b.toNat - 0x61 + 10) := by
  unfold symbolDigit
  split_ifs with hdigit hletter
  · rw [Option.some.injEq]
    omega
  · rw [Option.some.injEq]
    omega
  · simp only [false_iff]
    omega

/-- Settles O21: the table, and the two laws of the operands about it. -/
theorem symbolsAreTheLowerCaseAlphabet : Obligations.SymbolsAreTheLowerCaseAlphabet :=
  ⟨symbolDigit_eq_some_iff, fun _ _ _ => radixDigit_some, fun _ => digitSymbol_inverse⟩

end Sys2Proof.Proofs

/-! PROOFS. The responses (30_encoding.md R75, R84): what INIT answers, that every frame is answered once, and the
formats that a response can have. -/

namespace Sys2Proof.Proofs

open Sys2Proof.Machine Sys2Proof.Laws

/-! ### What a successful INIT builds -/

theorem initChecks_pass {radix : Nat} {key tweak : Bytes} {v : KeyVariant} {t : Tweak}
    (hv : keyVariant key.length = .ok v) (hmin : 2 ≤ radix) (hmax : radix ≤ 36) (ht : expand tweak = .ok t) :
    initChecks radix key tweak = .ok (v, (minLength radix, maxLength radix), t) := by
  have hr : checkRadix radix = .ok () := by
    simp [checkRadix, Config.radixMin, Config.radixMax]
    omega
  simp [initChecks, hv, hr, lengthBounds_legal hmin hmax, ht, bind, Except.bind, pure, Except.pure]

/-- Settles O40: the checks pass, and the registers are wide enough for the numbers that INIT writes (R35). -/
theorem initBuildsTheContext : Obligations.InitBuildsTheContext := by
  intro s radix key tweak v T hv hmin hmax ht
  obtain ⟨hradix, hminLen, hmaxLen⟩ := newContext_toNat (t := T) (v := v) (key := key) hmin hmax
  refine ⟨newContext radix.toNat (minLength radix.toNat, maxLength radix.toNat) T v key,
    hradix, hminLen, hmaxLen, rfl, rfl, rfl, ?_⟩
  simp only [exec, execInit, initCommand, initChecks_pass hv hmin hmax ht]
  rfl

/-! ### Every frame is answered once -/

/-- The responses sent, the command that executes and the frames that wait: each frame ever offered is one of these. -/
def framesTaken (s : State) : Nat := responseCount s.sent + (if s.busy then 1 else 0) + s.waiting.length

section Balance

variable {s : State}

theorem framesTaken_landed (s : State) :
    framesTaken s.landed = framesTaken s + (offeredFrames (s.host.take 1)).length := by
  simp [framesTaken, landed_waiting, Nat.add_assoc]

/-- An accepted frame waits no more and executes (R196). -/
theorem framesTaken_accept {f : Bytes} {rest : List Bytes} (hb : s.busy = false) (hw : s.waiting = f :: rest) :
    framesTaken (s.accept rest) = framesTaken s := by
  simp [framesTaken, hb, hw]
  omega

/-- The command that executes is answered and executes no more (R198). -/
theorem framesTaken_of_answered {t : State} {f : Bytes} (hb : s.busy = true) (hbusy : t.busy = false)
    (hwaiting : t.waiting = s.waiting) (hsent : t.sent = s.sent ++ [.response f]) : framesTaken t = framesTaken s := by
  simp [framesTaken, responseCount, hb, hbusy, hwaiting, hsent]

theorem framesTaken_raise (w : Failing) (e : ErrorKind) (hb : s.busy = true) :
    framesTaken (s.raise w e) = framesTaken s :=
  framesTaken_of_answered hb (raise_busy w e s) (raise_waiting w e s) (raise_sent w e s)

theorem framesTaken_finishTransform (hb : s.busy = true) : framesTaken s.finishTransform = framesTaken s :=
  framesTaken_of_answered hb rfl rfl rfl

theorem framesTaken_initCommand (radix : Byte) (key tweak : Bytes) (hb : s.busy = true) :
    framesTaken (initCommand radix key tweak s) = framesTaken s := by
  rcases initCommand_cases radix key tweak s with ⟨v, t, -, -, -, -, -, h⟩ | ⟨e, h, -⟩ <;> rw [h]
  · exact framesTaken_of_answered hb rfl rfl rfl
  · exact framesTaken_raise _ _ hb

/-- A transform goes on executing, or is answered with the error of its checks (R195). -/
theorem framesTaken_startTransform (dir : Dir) (sym : Bytes) (tweak : Option Bytes) (hb : s.busy = true) :
    framesTaken (startTransform dir sym tweak s) = framesTaken s := by
  rcases startTransform_cases dir sym tweak s with ⟨tw, x, -, -, -, -, -, h⟩ | ⟨e, -, h⟩ <;> rw [h]
  · simp [framesTaken, hb]
  · exact framesTaken_raise _ _ hb

/-- A round sends a query, which is no response. -/
theorem framesTaken_roundStep {ciph : Oracle} {dir : Dir} {i : BitVec 3} {t : State}
    (h : roundStep ciph dir i s = .next t) : framesTaken t = framesTaken s := by
  obtain ⟨c, -, rfl⟩ := roundStep_next h
  simp [framesTaken, responseCount]

end Balance

/-- Settles O52: the host's turn adds the frames it offers, and no turn of the engine changes the count. -/
theorem everyCommandIsAnsweredOnce : Obligations.EveryCommandIsAnsweredOnce := by
  intro s t hr h
  suffices hturn : framesTaken t = framesTaken s.landed from hturn.trans (framesTaken_landed s)
  have accepted {f : Bytes} {rest : List Bytes} (hb : s.busy = false) (hw : s.landed.waiting = f :: rest) :
      framesTaken (s.landed.accept rest) = framesTaken s.landed := framesTaken_accept (by simpa using hb) hw
  rcases step_cases h with ⟨hreset, -⟩ | ⟨-, ⟨-, -, hround⟩ | ⟨hb, -, rfl⟩ | ⟨-, -, rfl⟩ |
    ⟨f, rest, e, hb, hw, -, rfl⟩ | ⟨f, rest, radix, key, tweak, hb, hw, -, rfl⟩ |
    ⟨f, rest, i, dir, sym, tweak, hb, hw, -, -, rfl⟩⟩
  · simp [hr] at hreset
  · exact framesTaken_roundStep hround
  · exact framesTaken_finishTransform (by simpa using hb)
  · rfl
  · exact (framesTaken_raise _ _ rfl).trans (accepted hb hw)
  · exact (framesTaken_initCommand _ _ _ rfl).trans (accepted hb hw)
  · exact (framesTaken_startTransform _ _ _ rfl).trans (accepted hb hw)

/-! ### The formats of a response -/

/-- The errors that a command can be answered with: all but the two that cannot occur (R235, R236). -/
def CanOccur (e : ErrorKind) : Prop := e ≠ .invalidDomainBounds ∧ e ≠ .valueTooLarge

theorem transformChecks_canOccur {valid : Bool} {ctx : Context} {sym : Bytes} {tweak : Option Bytes} {e : ErrorKind}
    (h : transformChecks valid ctx sym tweak = .error e) : CanOccur e := by
  rcases transformChecks_cases valid ctx sym tweak with ⟨_, _, -, -, -, -, -, hok⟩ | ⟨-, herr⟩ | ⟨-, -, herr⟩ |
    ⟨_, -, -, -, herr⟩ | ⟨_, -, -, -, -, -, herr⟩
  · cases h.symm.trans hok
  all_goals
    cases h.symm.trans herr
    exact ⟨nofun, nofun⟩

/-- INIT answers `RI` of the context it has built, or the error of its first failing check (R190, R222). -/
theorem initCommand_response (radix : Byte) (key tweak : Bytes) (s : State) :
    (∃ e, CanOccur e ∧ initCommand radix key tweak s = s.raise .init e) ∨
      ((initCommand radix key tweak s).valid = true ∧
        (initCommand radix key tweak s).sent = s.sent ++ [.response (responseRI
          (initCommand radix key tweak s).ctx.minLen (initCommand radix key tweak s).ctx.maxLen)]) := by
  rcases initCommand_cases radix key tweak s with ⟨v, t, -, -, -, -, -, h⟩ | ⟨e, h, he⟩
  · rw [h]
    exact .inr ⟨rfl, rfl⟩
  · refine .inl ⟨e, ?_, h⟩
    rcases he with ⟨rfl, -⟩ | ⟨rfl, -⟩ | ⟨rfl, -⟩ <;> exact ⟨nofun, nofun⟩

/-- The halves of a legal call have together the N digits of the message (R27, R28). -/
theorem legal_halves_length {c : Context} {q : CallRegs} (h : q.Legal c) : q.n.toNat = (q.a ++ q.b).length := by
  have hu := h.u_eq
  have hv := h.v_eq
  unfold halfUp at hu hv
  rw [List.length_append, h.a_length, h.b_length]
  split <;> omega

/-- The symbols of digits of a legal radix are symbols of that radix (R76). -/
theorem symbols_of_radix {r : Nat} {x : Digits} (hr : r ≤ 36) (hx : ∀ d ∈ x, d < r) :
    ∀ b ∈ symbols x, ∃ d, symbolDigit b = some d ∧ d < r := by
  intro b hb
  obtain ⟨d, hd, rfl⟩ := List.mem_map.1 hb
  exact ⟨d, digitSymbol_inverse ((hx d hd).trans_le hr), hx d hd⟩

/-- The response at the end of a legal call is `RM` of N symbols of the radix (R75, R179). -/
theorem finishTransform_response {c : Context} {q : CallRegs} (hc : c.Legal) (hq : q.Legal c) :
    q.n.toNat = (symbols (q.a ++ q.b)).length ∧
      ∀ b ∈ symbols (q.a ++ q.b), ∃ d, symbolDigit b = some d ∧ d < c.radix.toNat := by
  refine ⟨by rw [symbols, List.length_map, legal_halves_length hq], symbols_of_radix hc.radix_max fun d hd => ?_⟩
  exact (List.mem_append.1 hd).elim (hq.a_digits d) (hq.b_digits d)

/-- Settles O53: of everything a step can do, raising an error, a successful INIT and the end of a call send a response,
one of each format. -/
theorem responsesHaveTheirFormats : Obligations.ResponsesHaveTheirFormats := by
  intro s t f hs h hsent
  rw [← landed_sent s] at hsent
  have sends {g : Bytes} (ht : t.sent = s.landed.sent ++ [.response g]) : f = g := by
    simpa using hsent.symm.trans ht
  have silent (ht : t.sent = s.landed.sent) : False := by
    simpa using hsent.symm.trans ht
  have raised {w : Failing} {e : ErrorKind} (u : State) (he : CanOccur e) (hu : u.sent = s.landed.sent)
      (ht : t = u.raise w e) : ∃ e : ErrorKind, f = [e.code] ∧ e ≠ .invalidDomainBounds ∧ e ≠ .valueTooLarge :=
    ⟨e, sends (by rw [ht, raise_sent, hu]; rfl), he⟩
  rcases step_cases h with ⟨-, ht⟩ | ⟨-, ⟨-, -, hround⟩ | ⟨hb, -, ht⟩ | ⟨-, -, ht⟩ |
    ⟨f, rest, e, -, -, -, ht⟩ | ⟨f, rest, radix, key, tweak, -, -, -, ht⟩ |
    ⟨f, rest, i, dir, sym, tweak, -, -, -, -, ht⟩⟩
  · exact (silent (by rw [ht, assertReset_sent])).elim
  · obtain ⟨c, -, rfl⟩ := roundStep_next hround
    simp at hsent
  · obtain ⟨hlen, hsymbols⟩ := finishTransform_response (hs.context (hs.configured hb)) (hs.call hb)
    refine .inr (.inr ⟨_, _, sends ?_, hlen, hsymbols⟩)
    rw [ht, finishTransform_sent, landed_call]
    rfl
  · exact (silent (by rw [ht])).elim
  · exact .inl (raised (s.landed.accept rest) (e := .illegalCommand) ⟨nofun, nofun⟩ rfl ht)
  · rcases initCommand_response radix key tweak (s.landed.accept rest) with ⟨e, he, hinit⟩ | ⟨hvalid, hinit⟩
    · exact .inl (raised (s.landed.accept rest) he rfl (ht.trans hinit))
    · rw [← ht] at hvalid hinit
      exact .inr (.inl ⟨sends hinit, hvalid⟩)
  · rcases startTransform_cases dir sym tweak (s.landed.accept rest) with ⟨_, _, -, -, -, -, -, hstart⟩ |
      ⟨e, he, hstart⟩
    · exact (silent (by rw [ht, hstart]; rfl)).elim
    · exact .inl (raised (s.landed.accept rest) (transformChecks_canOccur he) rfl (ht.trans hstart))

end Sys2Proof.Proofs

/-! PROOFS. The checks of 40_domain_validator.md: the length bounds of every radix, the key lengths, and the digit check
of a message. -/

namespace Sys2Proof.Proofs

open Sys2Proof.Machine Sys2Proof.Laws

/-! ### The length bounds of a radix -/

/-- Settles O16: the search's 21 exponents suffice, since `2 ^ 20` already reaches the bound. -/
theorem minLenIsTheLeastPower : Obligations.MinLenIsTheLeastPower := by
  intro r hr
  have hreach : Config.domainMin ≤ r ^ 20 :=
    calc Config.domainMin ≤ 2 ^ 20 := by decide
      _ ≤ r ^ 20 := Nat.pow_le_pow_left hr 20
  obtain ⟨hpow, -, hleast⟩ := leastPower_spec 20 0 ⟨20, Nat.zero_le _, Nat.le_refl _, hreach⟩
  exact ⟨hpow, fun m => hleast m (Nat.zero_le m)⟩

/-- Settles O17: the search starts high enough, since from radix 2 on an exponent above 96 leaves the cap. -/
theorem maxLenIsTwiceTheGreatestPower : Obligations.MaxLenIsTwiceTheGreatestPower := by
  intro r hr
  obtain ⟨hpow, hgreatest⟩ := greatestPower_spec (r := r) (bound := Config.halfCap) (by decide) 96
  refine ⟨greatestPower r Config.halfCap 96, rfl, hpow, fun j hj => hgreatest j ?_ hj⟩
  have hexp : 2 ^ j ≤ 2 ^ 96 := (Nat.pow_le_pow_left hr j).trans hj
  exact (Nat.pow_le_pow_iff_right Nat.one_lt_two).1 hexp

/-- A half of the greatest length has a value that fits the cap (R101, R103). -/
theorem pow_half_maxLength_le {r : Nat} (hr : 2 ≤ r) : r ^ (maxLength r / 2) ≤ 2 ^ 96 := by
  obtain ⟨k, hk, hpow, -⟩ := maxLenIsTwiceTheGreatestPower r hr
  rwa [hk, Nat.mul_div_cancel_left k Nat.two_pos]

/-- Settles O18: the rows are computed, and the consequences follow from the bounds of a legal radix. -/
theorem boundsOfEveryRadix : Obligations.BoundsOfEveryRadix := by
  refine ⟨by decide, fun r hmin hmax => ?_⟩
  obtain ⟨hlow, hlow', hhigh, hhigh'⟩ := length_bounds hmin hmax
  exact ⟨hlow, hlow', hhigh, hhigh', by omega, pow_half_maxLength_le hmin⟩

/-! ### The key lengths -/

/-- The key length tells the variant (R104). -/
theorem keyVariant_bytes (v : KeyVariant) : keyVariant v.bytes = .ok v := by
  cases v <;> rfl

theorem keyVariant_eq_ok_iff (n : Nat) (v : KeyVariant) : keyVariant n = .ok v ↔ n = v.bytes := by
  constructor
  · intro h
    rcases keyVariant_cases n with ⟨w, hw, rfl⟩ | ⟨herr, -⟩
    · rw [Except.ok.inj (hw.symm.trans h)]
    · cases herr.symm.trans h
  · rintro rfl
    exact keyVariant_bytes v

/-- Settles O19: the lengths that pass, the lengths that fail, and the sizes of the three variants. -/
theorem keyVariantIsTheKeySize : Obligations.KeyVariantIsTheKeySize := by
  refine ⟨keyVariant_eq_ok_iff, fun n h16 h24 h32 => ?_, fun v => ?_⟩
  · simp [keyVariant, h16, h24, h32]
  · cases v <;> decide

/-! ### The digit check -/

theorem radixDigit_none {r : Nat} {b : Byte} :
    radixDigit r b = none ↔ ∀ d, symbolDigit b = some d → r ≤ d := by
  simp [radixDigit, Option.filter_eq_none_iff]

/-- A message passes where its first symbol and the rest of it pass. -/
theorem checkDigits_cons_ok {r : Nat} {b : Byte} {sym : Bytes} {x : Digits} :
    checkDigits r (b :: sym) = .ok x ↔ ∃ d y, radixDigit r b = some d ∧ checkDigits r sym = .ok y ∧ x = d :: y := by
  cases hd : radixDigit r b with
  | none => simp [checkDigits, hd]
  | some d =>
    cases hy : checkDigits r sym with
    | ok y => simp [checkDigits, hd, hy, eq_comm]
    | error e => simp [checkDigits, hd, hy]

/-- A message fails where its first symbol or the rest of it fails. -/
theorem checkDigits_cons_error {r : Nat} {b : Byte} {sym : Bytes} :
    checkDigits r (b :: sym) = .error .invalidDigitForRadix ↔
      radixDigit r b = none ∨ checkDigits r sym = .error .invalidDigitForRadix := by
  cases hd : radixDigit r b with
  | none => simp [checkDigits, hd]
  | some d =>
    cases hy : checkDigits r sym with
    | ok y => simp [checkDigits, hd, hy]
    | error e => simp [checkDigits, hd, hy, checkDigits_error hy]

theorem checkDigits_eq_ok_iff {r : Nat} {sym : Bytes} {x : Digits} :
    checkDigits r sym = .ok x ↔ List.Forall₂ (fun b d => symbolDigit b = some d ∧ d < r) sym x := by
  induction sym generalizing x with
  | nil => simp [checkDigits, eq_comm]
  | cons b sym ih => simp [checkDigits_cons_ok, List.forall₂_cons_left_iff, radixDigit_some, ih, and_assoc]

theorem checkDigits_eq_error_iff {r : Nat} {sym : Bytes} :
    checkDigits r sym = .error .invalidDigitForRadix ↔ ∃ b ∈ sym, ∀ d, symbolDigit b = some d → r ≤ d := by
  induction sym with
  | nil => simp [checkDigits]
  | cons b sym ih => rw [checkDigits_cons_error, radixDigit_none, ih, List.exists_mem_cons_iff]

/-- Settles O22: the check answers digit by digit, and fails at the first byte that is no symbol of the radix. -/
theorem checkDigitsIsExact : Obligations.CheckDigitsIsExact :=
  fun _ _ => ⟨fun _ => checkDigits_eq_ok_iff, checkDigits_eq_error_iff⟩

end Sys2Proof.Proofs

/-! PROOFS. The tweak codec (41_tweak_codec.md): what `expand` answers, the two halves of a tweak, and INIT with a tweak
and with its expanded form. -/

namespace Sys2Proof.Proofs

open Sys2Proof.Machine Sys2Proof.Laws

/-! ### Expansion -/

/-- Eight bytes pass through (R120). -/
theorem expand_of_length_eq_eight {t : Bytes} (h : t.length = 8) : ∃ T : Tweak, expand t = .ok T ∧ T.toList = t := by
  match t, h with
  | [t0, t1, t2, t3, t4, t5, t6, t7], _ => exact ⟨#v[t0, t1, t2, t3, t4, t5, t6, t7], rfl, rfl⟩

theorem expand_of_length_ne {t : Bytes} (h7 : t.length ≠ 7) (h8 : t.length ≠ 8) :
    expand t = .error .invalidTweakLength := by
  rcases expand_cases t with ⟨-, -, h | h⟩ | ⟨h, -⟩
  · exact absurd h h7
  · exact absurd h h8
  · exact h

/-- The high nibble stays where it is and the low nibble is shifted up; shifted down again, the two make the byte. -/
theorem byte_of_nibbles (b : Byte) : (b &&& 0xF0#8) ||| (((b &&& 0x0F#8) <<< 4) >>> 4) = b := by
  have hlow : ((b &&& 0x0F#8) <<< 4) >>> 4 = b &&& 0x0F#8 := by
    have hlt : (b &&& 0x0F#8).toNat < 2 ^ 4 := Nat.and_lt_two_pow b.toNat (by decide)
    bv_omega
  rw [hlow, ← BitVec.and_or_distrib_left]
  exact BitVec.and_allOnes

/-- No two 7-byte tweaks expand alike, since byte 3 can be put together again from its two nibbles (R120). -/
theorem expand_injective_of_length_eq_seven {t t' : Bytes} (h : t.length = 7) (h' : t'.length = 7)
    (heq : expand t = expand t') : t = t' := by
  match t, t', h, h' with
  | [t0, t1, t2, t3, t4, t5, t6], [t0', t1', t2', t3', t4', t5', t6'], _, _ =>
    have hT := congrArg Vector.toList (Except.ok.inj heq)
    simp only [Vector.toList_mk, List.cons.injEq] at hT
    obtain ⟨rfl, rfl, rfl, hhigh, rfl, rfl, rfl, hlow, -⟩ := hT
    rw [← byte_of_nibbles t3, hhigh, hlow, byte_of_nibbles]

/-- Settles O23: the three lengths, and injectivity on seven bytes. -/
theorem expandIsTheCanonicalTweak : Obligations.ExpandIsTheCanonicalTweak :=
  ⟨fun _ => expand_of_length_eq_eight, fun _ _ _ _ _ _ _ => rfl, fun _ => expand_of_length_ne,
    fun _ _ => expand_injective_of_length_eq_seven⟩

/-- The expanded form is its own expansion (R120, R123). -/
theorem expand_toList (T : Tweak) : expand T.toList = .ok T := by
  obtain ⟨T', hT', hlist⟩ := expand_of_length_eq_eight T.length_toList
  rw [hT', Vector.toList_inj.1 hlist]

/-! ### INIT sees a tweak only through its expansion -/

theorem initCommand_congr_tweak {t t' : Bytes} (h : expand t = expand t') (radix : Byte) (key : Bytes) (s : State) :
    initCommand radix key t s = initCommand radix key t' s := by
  have hchecks : initChecks radix.toNat key t = initChecks radix.toNat key t' := by
    simp only [initChecks, h]
  simp only [initCommand, hchecks]

/-- Settles O25: a tweak and its expanded form have one expansion, and INIT reads nothing else of either. -/
theorem expandedTweakBuildsTheSameContext : Obligations.ExpandedTweakBuildsTheSameContext := by
  intro s radix key t T ht
  exact congrArg Host.Outcome.next (initCommand_congr_tweak (ht.trans (expand_toList T).symm) radix key s)

/-! ### The two halves -/

/-- A tweak written out byte by byte. -/
theorem tweak_toList (T : Tweak) : T.toList = [T[0], T[1], T[2], T[3], T[4], T[5], T[6], T[7]] := by
  obtain ⟨t, h⟩ := T
  match t, h with
  | ⟨[_, _, _, _, _, _, _, _]⟩, _ => rfl

/-- Settles O24: both halves are read off the tweak written out. -/
theorem splitIsTheTwoHalvesInOrder : Obligations.SplitIsTheTwoHalvesInOrder := by
  intro T
  rw [tweak_toList T]
  exact ⟨rfl, rfl⟩

end Sys2Proof.Proofs

/-! PROOFS. The radix codec (42_radix_codec.md): positional sums, the strings and byte strings that spell a number, the
Euclidean remainder, and where a round's rendering stops. -/

namespace Sys2Proof.Proofs

open Sys2Proof.Machine Sys2Proof.Laws

/-! ### Positional sums -/

/-- A digit put at the end shifts every weight up by one place (R130). -/
theorem num_eq_sum (r : Nat) (x : Digits) :
    num r x = ∑ j ∈ Finset.range x.length, x.getD j 0 * r ^ (x.length - 1 - j) := by
  induction x using List.reverseRecOn with
  | nil => rfl
  | append_singleton x d ih =>
    have hshift : ∀ j ∈ Finset.range x.length,
        (x ++ [d]).getD j 0 * r ^ (x.length - j) = x.getD j 0 * r ^ (x.length - 1 - j) * r := by
      intro j hj
      have hj : j < x.length := Finset.mem_range.1 hj
      have hexp : x.length - j = x.length - 1 - j + 1 := by omega
      rw [List.getD_append x [d] 0 j hj, hexp, Nat.pow_succ, Nat.mul_assoc]
    rw [num_snoc, List.length_append, List.length_singleton, Finset.sum_range_succ, Nat.add_sub_cancel,
      Finset.sum_congr rfl hshift, ← Finset.sum_mul, ← ih]
    simp

/-- Settles O26: the sum is `num_eq_sum`, the bound is the law `num_lt`. -/
theorem numIsThePositionalSum : Obligations.NumIsThePositionalSum :=
  fun r x => ⟨num_eq_sum r x, num_lt x, num_nil r⟩

/-- Settles O29: a byte string's value is NUM_256 of its bytes, so the sum and the bound are those of digits. -/
theorem bigEndianIsThePositionalSum : Obligations.BigEndianIsThePositionalSum := by
  refine ⟨fun z => ?_, bigEndian_toFixedBytes, bigEndian_zeros 1, fun z hz => ?_⟩
  · rw [bigEndian_eq_num, num_eq_sum, List.length_map]
    exact Finset.sum_congr rfl fun j _ => by rw [← List.getD_map (f := BitVec.toNat), BitVec.toNat_zero]
  · calc bigEndian z < 256 ^ z.length := bigEndian_lt z
      _ = 2 ^ 128 := by rw [hz]; norm_num

/-! ### The strings that spell a number -/

/-- Settles O27: a value the string cannot hold is refused, and any other is rendered. -/
theorem strSpellsOrIsTooLarge : Obligations.StrSpellsOrIsTooLarge := by
  intro r m x hr
  refine ⟨toDigitString_error, fun hx => ?_⟩
  have hok := toDigitString_ok hx
  obtain ⟨-, hspells⟩ := toDigitString_cases (by omega) hok
  exact ⟨fixedDigits r m x, hok, hspells⟩

/-- A string with no leading zero digit is the natural representation of its value: the padding that would make it as
long as the string is empty, since padding starts with a zero. -/
theorem naturalDigits_num {r : Nat} (hr : 2 ≤ r) {x : Digits} (hlt : ∀ d ∈ x, d < r) (hhead : x.head? ≠ some 0) :
    naturalDigits r (num r x) (num r x) = x := by
  have hpad := replicate_naturalDigits hr (num_lt x hlt)
  rw [fixedDigits_num x hlt] at hpad
  generalize x.length - (naturalDigits r (num r x) (num r x)).length = k at hpad
  cases k with
  | zero => exact hpad
  | succ k =>
    rw [List.replicate_succ, List.cons_append] at hpad
    exact absurd (by rw [← hpad, List.head?_cons]) hhead

/-- The leading byte is zero where the leading digit to the base 256 is. -/
theorem head?_map_toNat_eq_zero_iff (z : Bytes) : (z.map BitVec.toNat).head? = some 0 ↔ z.head? = some 0#8 := by
  cases z with
  | nil => simp
  | cons b z => simp [← BitVec.toNat_inj]

theorem toFixedBytes_head (x : Nat) : (toFixedBytes x).head? ≠ some 0#8 := by
  rw [Ne, ← head?_map_toNat_eq_zero_iff, toFixedBytes_map]
  exact naturalDigits_head (by decide) x

theorem toFixedBytes_bigEndian {z : Bytes} (hhead : z.head? ≠ some 0#8) : toFixedBytes (bigEndian z) = z := by
  have hlt : ∀ d ∈ z.map BitVec.toNat, d < 256 := by
    intro d hd
    obtain ⟨b, -, rfl⟩ := List.mem_map.1 hd
    exact b.isLt
  apply List.map_injective_iff.2 BitVec.toNat_injective
  rw [toFixedBytes_map, bigEndian_eq_num]
  exact naturalDigits_num (by decide) hlt (mt (head?_map_toNat_eq_zero_iff z).1 hhead)

/-- Settles O28: BYTES(x) is such a byte string, and every such byte string is BYTES of its value. -/
theorem bytesAreMinimalBigEndian : Obligations.BytesAreMinimalBigEndian := by
  intro x z
  constructor
  · rintro rfl
    exact ⟨bigEndian_toFixedBytes x, toFixedBytes_head x⟩
  · rintro ⟨rfl, hhead⟩
    exact toFixedBytes_bigEndian hhead

/-! ### The Euclidean remainder -/

/-- The integer `c` with `0 <= c < q` and `q` dividing `a - c` is unique (R136). -/
theorem emod_eq_iff {a c : Int} {q : Nat} (hq : 0 < q) :
    (emod a q : Int) = c ↔ 0 ≤ c ∧ c < q ∧ (q : Int) ∣ a - c := by
  rw [emod_cast a hq, Int.emod_eq_iff (by omega), Int.natAbs_natCast, dvd_sub_comm]

/-- The truncating remainder differs from `a` by a multiple of `q` and lies between `-q` and `q` (R136). -/
theorem emod_eq_tmod {a : Int} {q : Nat} (hq : 0 < q) :
    (emod a q : Int) = if 0 ≤ Int.tmod a q then Int.tmod a q else Int.tmod a q + q := by
  have hlow := Int.lt_tmod_of_pos a (b := (q : Int)) (by omega)
  have hhigh := Int.tmod_lt_of_pos a (b := (q : Int)) (by omega)
  have hdvd : (q : Int) ∣ a - Int.tmod a q := Int.dvd_self_sub_tmod
  rw [emod_eq_iff hq]
  split
  · next hnonneg => exact ⟨hnonneg, hhigh, hdvd⟩
  · next hneg =>
    refine ⟨by omega, by omega, ?_⟩
    rw [← sub_sub]
    exact dvd_sub_self_right.2 hdvd

/-- Settles O30: uniqueness is `emod_eq_iff` at a natural number, the truncating form is `emod_eq_tmod`. -/
theorem emodIsTheEuclideanRemainder : Obligations.EmodIsTheEuclideanRemainder := by
  intro a q hq
  refine ⟨fun c => ?_, emod_eq_tmod hq⟩
  rw [eq_comm, ← Int.natCast_inj, emod_eq_iff hq, Int.ofNat_lt]
  exact and_iff_right (Int.natCast_nonneg c)

/-- Settles O31: (a) is a part of O27, (b) and (c) are laws of the codec. -/
theorem codecInverseLaws : Obligations.CodecInverseLaws := by
  refine ⟨fun r m x hr hx => ?_, fun r x _ hlt => ?_, fun a y q hq => ⟨emod_add_sub a y hq, emod_sub_add a y hq⟩⟩
  · obtain ⟨d, hok, -, -, hnum⟩ := (strSpellsOrIsTooLarge r m x hr).2 hx
    exact ⟨d, hok, hnum⟩
  · rw [toDigitString_ok (num_lt x hlt), fixedDigits_num x hlt]

/-! ### Where a round stops -/

theorem renderHalf_eq_none_iff {r m : Nat} {x : Int} : renderHalf r m x = none ↔ r ^ m = 0 := by
  simp [renderHalf]

theorem stateHalf_eq_none_iff {ciph : Oracle} {dir : Dir} {i : BitVec 3} {s : State} :
    stateHalf ciph dir i s = none ↔ s.ctx.radix.toNat ^ halfLength i s.call.u.toNat s.call.v.toNat = 0 :=
  renderHalf_eq_none_iff

/-- A round stops exactly where its modulus is 0, in either direction and for any oracle (R131, R157). -/
theorem roundStep_eq_fault_iff {ciph : Oracle} {dir : Dir} {i : BitVec 3} {s : State} :
    roundStep ciph dir i s = .fault .valueTooLarge ↔
      s.ctx.radix.toNat ^ halfLength i s.call.u.toNat s.call.v.toNat = 0 := by
  rw [← stateHalf_eq_none_iff (ciph := ciph) (dir := dir)]
  rcases roundStep_cases ciph dir i s with ⟨c, hhalf, hstep⟩ | ⟨hhalf, hstep⟩ <;> simp [hhalf, hstep]

/-- A round that does not stop answers a next state. -/
theorem roundStep_answers {ciph : Oracle} {dir : Dir} {i : BitVec 3} {s : State}
    (h : s.ctx.radix.toNat ^ halfLength i s.call.u.toNat s.call.v.toNat ≠ 0) :
    ∃ t, roundStep ciph dir i s = .next t := by
  rcases roundStep_cases ciph dir i s with ⟨c, -, hstep⟩ | ⟨hhalf, -⟩
  · exact ⟨_, hstep⟩
  · exact absurd (stateHalf_eq_none_iff.1 hhalf) h

/-- Settles O38: RNDE and RNDD are the two directions of one round. -/
theorem roundStopsOnlyOnModulusZero : Obligations.RoundStopsOnlyOnModulusZero := by
  intro s i
  have hrnde : exec (.rnde i) s = roundStep Config.ciph .encrypt i s := exec_round .encrypt i s
  have hrndd : exec (.rndd i) s = roundStep Config.ciph .decrypt i s := exec_round .decrypt i s
  rw [hrnde, hrndd]
  exact ⟨⟨roundStep_eq_fault_iff, roundStep_eq_fault_iff⟩, fun h => ⟨roundStep_answers h, roundStep_answers h⟩⟩

end Sys2Proof.Proofs

/-! PROOFS. The round function (43_round_function.md): what the parity of the index selects, the block and its reversal,
the value of the answer, and the fold. -/

namespace Sys2Proof.Proofs

open Sys2Proof.Machine Sys2Proof.Laws

/-! ### The parity of the round index -/

theorem tweakHalf_eq (i : BitVec 3) (tw : Tweak) :
    tweakHalf i tw = if i.toNat % 2 = 0 then tweakRight tw else tweakLeft tw := by
  rw [tweakHalf, evenRound_eq]
  simp only [decide_eq_true_eq]

theorem halfLength_eq (i : BitVec 3) (u v : Nat) : halfLength i u v = if i.toNat % 2 = 0 then u else v := by
  rw [halfLength, evenRound_eq]
  simp only [decide_eq_true_eq]

/-- Settles O34: both selections read the lowest bit of the index, which is its parity. -/
theorem paritySelectsTweakHalfAndLength : Obligations.ParitySelectsTweakHalfAndLength := by
  intro i tw u v
  rw [tweakHalf_eq, halfLength_eq]
  refine ⟨fun heven => ⟨if_pos heven, if_pos heven⟩, fun hodd => ?_⟩
  have hnot : ¬ i.toNat % 2 = 0 := by omega
  exact ⟨if_neg hnot, if_neg hnot⟩

/-! ### The block -/

/-- The value of a half in range fits 12 bytes, since the half is no longer than the cap on its length (R101, R153). -/
theorem num_rev_lt_of_length_le {r : Nat} {src : Digits} (hr : 2 ≤ r) (hlt : ∀ d ∈ src, d < r)
    (hlen : src.length ≤ maxLength r / 2) : num r (rev src) < 2 ^ 96 :=
  calc num r (rev src) < r ^ (rev src).length := num_lt _ fun d hd => hlt d (List.mem_reverse.1 hd)
    _ = r ^ src.length := by rw [rev, List.length_reverse]
    _ ≤ r ^ (maxLength r / 2) := Nat.pow_le_pow_right (by omega) hlen
    _ ≤ 2 ^ 96 := pow_half_maxLength_le hr

/-- Behind the head the block is zero until the value is placed (R152). -/
theorem headByte_of_four_le {j : Nat} (w : TweakHalf) (i : BitVec 3) (hj : 4 ≤ j) : headByte w i j = 0#8 := by
  simp [headByte, show j ≠ 0 by omega, show j ≠ 1 by omega, show j ≠ 2 by omega, show j ≠ 3 by omega]

section Block

variable {i : BitVec 3} {w : TweakHalf} {r : Nat} {src : Digits} (h : num r (rev src) < 2 ^ 96)

include h

theorem valueBytes_length_le : (toFixedBytes (num r (rev src))).length ≤ 12 :=
  (toFixedBytes_length_le 12 _).2 (h.trans_eq (by norm_num))

/-- A value of at most 12 bytes leaves the head as R152 wrote it. -/
theorem roundBlock_get_of_lt_four {j : Nat} (hj : j < 4) :
    (roundBlock i w r src)[j]'(by omega) = headByte w i j := by
  have hlen := valueBytes_length_le h
  rw [roundBlock_get, if_pos (by omega)]

/-- Behind the head come zeros and then the bytes of the value (R152, R153). -/
theorem roundBlock_toList_drop_four :
    (roundBlock i w r src).toList.drop 4 =
      List.replicate (12 - (toFixedBytes (num r (rev src))).length) 0#8 ++ toFixedBytes (num r (rev src)) := by
  have hlen := valueBytes_length_le h
  apply List.ext_getElem
  · simp
    omega
  · intro j hdrop happend
    have hj : 4 + j < 16 := by
      rw [List.length_drop, Vector.length_toList] at hdrop
      omega
    rw [List.getElem_drop, Vector.getElem_toList, roundBlock_get hj, List.getElem_append]
    simp only [List.length_replicate, List.getElem_replicate]
    by_cases hzero : j < 12 - (toFixedBytes (num r (rev src))).length
    · rw [if_pos (by omega), dif_pos hzero, headByte_of_four_le w i (by omega)]
    · have hoff : 4 + j - (16 - (toFixedBytes (num r (rev src))).length) =
          j - (12 - (toFixedBytes (num r (rev src))).length) := by omega
      rw [if_neg (by omega), dif_neg hzero, hoff, List.getD_eq_getElem]

end Block

/-- Settles O32: a half in range has a value of at most 12 bytes, so the head stays, and leading zeros do not change the
value. -/
theorem roundBlockHoldsTweakIndexAndHalf : Obligations.RoundBlockHoldsTweakIndexAndHalf := by
  intro i w r src hmin _ hlt hlen
  have hfits : num r (rev src) < 2 ^ 96 := num_rev_lt_of_length_le hmin hlt hlen
  refine ⟨roundBlock_get_of_lt_four hfits (j := 0) (by decide), roundBlock_get_of_lt_four hfits (j := 1) (by decide),
    roundBlock_get_of_lt_four hfits (j := 2) (by decide), roundBlock_get_of_lt_four hfits (j := 3) (by decide), ?_, hfits⟩
  rw [roundBlock_toList_drop_four hfits, bigEndian_zeros, bigEndian_toFixedBytes]

/-! ### The query and the answer -/

/-- The big-endian value of a reversed byte string is its little-endian value (R156). -/
theorem bigEndian_reverse (z : Bytes) :
    bigEndian z.reverse = ∑ j ∈ Finset.range z.length, (z.getD j 0#8).toNat * 256 ^ j := by
  induction z with
  | nil => rfl
  | cons b z ih =>
    have hshift : ∀ j ∈ Finset.range z.length,
        ((b :: z).getD (j + 1) 0#8).toNat * 256 ^ (j + 1) = (z.getD j 0#8).toNat * 256 ^ j * 256 :=
      fun j _ => by rw [List.getD_cons_succ, Nat.pow_succ, Nat.mul_assoc]
    rw [List.reverse_cons, bigEndian_snoc, List.length_cons, Finset.sum_range_succ', Finset.sum_congr rfl hshift,
      ← Finset.sum_mul, ← ih, List.getD_cons_zero, Nat.pow_zero, Nat.mul_one]

theorem answerValue_eq_sum (rr : Block) :
    answerValue rr = ∑ j ∈ Finset.range 16, (rr.toList.getD j 0#8).toNat * 256 ^ j := by
  rw [answerValue, revBlock_toList, bigEndian_reverse, Vector.length_toList]

/-- Settles O33: query and answer go through `revBlock`, and the reversed answer's value is the little-endian sum. -/
theorem queryAndAnswerAreByteReversed : Obligations.QueryAndAnswerAreByteReversed :=
  ⟨fun i tw r src => revBlock_get (roundBlock i (tweakHalf i tw) r src),
    fun rr => ⟨⟨revBlock rr, revBlock_get rr, rfl⟩, answerValue_eq_sum rr, answerValue_lt rr⟩⟩

/-! ### The fold -/

/-- Settles O35: the remainder is below the modulus, so its rendering does not raise, and the round reverses it. -/
theorem roundFoldsByEuclideanRemainder : Obligations.RoundFoldsByEuclideanRemainder := by
  intro ciph k i dir tw r u v src other c hr hc
  have hfold : c = emod (foldSum dir (num r (rev other)) (answerValue (ciph k (roundQuery i tw r src))))
      (r ^ halfLength i u v) := by
    cases dir <;> exact hc
  have hlt : c < r ^ halfLength i u v := hfold ▸ emod_lt _ (Nat.pow_pos hr)
  refine ⟨hlt, fixedDigits r (halfLength i u v) c, toDigitString_ok hlt, fixedDigits_length _ _ _, ?_⟩
  rw [roundF, renderHalf_pos hr, ← hfold]

end Sys2Proof.Proofs

/-! PROOFS. The Feistel engine (44_feistel_engine.md): one round as the machine runs it, the end of a call, why no step
of a well-kept state stops, and, over any oracle, that a round, a schedule and a transform are undone by the opposite
direction. -/

namespace Sys2Proof.Proofs

open Sys2Proof.Machine Sys2Proof.Laws

/-! ### One round as the machine runs it -/

/-- A round under a radix that is not 0: its half exists, has the length of its parity and digits of the radix, and is
moved in with one query (R157 to R159, R172, R173). -/
theorem roundStep_of_radix_pos (ciph : Oracle) (dir : Dir) (i : BitVec 3) {s : State} (hr : 1 ≤ s.ctx.radix.toNat) :
    ∃ c, stateHalf ciph dir i s = some c ∧ c.length = halfLength i s.call.u.toNat s.call.v.toNat ∧
      (∀ d ∈ c, d < s.ctx.radix.toNat) ∧
      roundStep ciph dir i s = .next
        { s with call := s.call.roundMove dir i c, sent := s.sent ++ [.query s.ctx.key (stateQuery dir i s)] } := by
  obtain ⟨c, hhalf⟩ := stateHalf_some ciph dir i hr
  obtain ⟨hlen, hdigits⟩ := stateHalf_cases hr hhalf
  exact ⟨c, hhalf, hlen, hdigits, roundStep_of_half hhalf⟩

/-- RNDE i that left its source half in A has sent the query of that half (R82, R154). -/
theorem rnde_sent {i : BitVec 3} {s t : State} (h : exec (.rnde i) s = .next t) :
    t.sent = s.sent ++ [.query t.ctx.key (roundQuery i t.call.tw t.ctx.radix.toNat t.call.a)] := by
  obtain ⟨c, -, rfl⟩ := roundStep_next (h : roundStep Config.ciph .encrypt i s = .next t)
  rfl

/-- Settles O36: the encrypt direction of a round, with RI at the round's own index. -/
theorem rndeIsOneEncryptRound : Obligations.RndeIsOneEncryptRound := by
  rintro s i hr - rfl - -
  obtain ⟨c, hhalf, hlen, hdigits, hstep⟩ := roundStep_of_radix_pos Config.ciph .encrypt s.call.ri hr
  exact ⟨c, hhalf, hlen, hdigits, hstep⟩

/-- Settles O37: the decrypt direction of a round, whose source A is the half that RNDE i read and left there. -/
theorem rnddIsOneDecryptRound : Obligations.RnddIsOneDecryptRound := by
  rintro s i hr - rfl - -
  obtain ⟨c, hhalf, hlen, hdigits, hstep⟩ := roundStep_of_radix_pos Config.ciph .decrypt s.call.ri hr
  refine ⟨c, hhalf, hlen, hdigits, hstep, fun s' t' hrnde hctx htw ha => ?_⟩
  rw [rnde_sent hrnde, hctx, htw, ha]
  rfl

/-! ### The end of a call -/

/-- Settles O9: with RC = 8 the step is the host's turn and then the end of the call. -/
theorem callEndsWithTheResponse : Obligations.CallEndsWithTheResponse := by
  intro s hr hb hrc
  refine ⟨Config.freeCall s.landed.drawn, s.landed.drawn + 1, ?_⟩
  rw [step_of_roundsDone hr hb (by simp [State.roundsDone, hrc]), ← landed_sent s, ← landed_call s]
  rfl

/-! ### No step of a well-kept state stops -/

/-- A command never stops: INIT and the front part of a transform answer or load the call registers (R265). -/
theorem exec_command_answers {f : Bytes} {i : Instr} (h : decodeFrame f = .ok i) (s : State) :
    ∃ t, exec i s = .next t := by
  rcases command_cases h with ⟨radix, key, tweak, rfl⟩ | ⟨⟨dir, sym, tweak⟩, hreq⟩
  · exact ⟨_, rfl⟩
  · exact ⟨_, exec_request hreq s⟩

/-- One turn of the engine from a well-kept state answers a next state: in a call the radix is legal, so no round has
modulus 0 (R181, R235). -/
theorem engineTurn_answers {s : State} (h : s.Inv) : ∃ t, engineTurn s = .next t := by
  rcases engineTurn_cases s with ⟨hb, -, hround⟩ | ⟨-, -, hdone⟩ | ⟨-, -, hidle⟩ | ⟨f, rest, e, -, -, -, hillegal⟩ |
    ⟨f, rest, i, -, -, hf, hcommand⟩
  · have hradix := legal_radix_pos (h.context (h.configured hb))
    obtain ⟨c, -, -, -, hstep⟩ := roundStep_of_radix_pos Config.ciph s.call.dir s.call.ri hradix
    exact ⟨_, hround.trans hstep⟩
  · exact ⟨_, hdone⟩
  · exact ⟨_, hidle⟩
  · exact ⟨_, hillegal⟩
  · rw [hcommand]
    exact exec_command_answers hf _

/-- Settles O56: reset always answers, and without it the engine's turn does. -/
theorem wellKeptStatesNeverStop : Obligations.WellKeptStatesNeverStop := by
  intro s hs
  cases hr : s.resetNow with
  | true => exact ⟨_, step_of_resetNow hr⟩
  | false =>
    obtain ⟨t, ht⟩ := engineTurn_answers (landed_inv hs)
    exact ⟨t, (step_of_not_resetNow hr).trans ht⟩

/-! ### A round is undone by the opposite direction -/

/-- The direction that undoes a direction (R178). -/
def opposite : Dir → Dir
  | .encrypt => .decrypt
  | .decrypt => .encrypt

@[simp] theorem opposite_opposite (dir : Dir) : opposite (opposite dir) = dir := by cases dir <;> rfl

/-- The half that a round of a direction reads: B for encrypt, A for decrypt (R150). -/
def sourceOf : Dir → Halves → Digits
  | .encrypt, h => h.b
  | .decrypt, h => h.a

/-- The half that a round of a direction replaces: A for encrypt, B for decrypt (R150). -/
def replacedOf : Dir → Halves → Digits
  | .encrypt, h => h.a
  | .decrypt, h => h.b

/-- The halves after a round of a direction that read `src` and made `new` (R172, R173). -/
def movedIn : Dir → (src new : Digits) → Halves
  | .encrypt, src, new => { a := src, b := new }
  | .decrypt, src, new => { a := new, b := src }

section Move

variable (dir : Dir) (src new : Digits) (h : Halves)

@[simp] theorem sourceOf_movedIn : sourceOf dir (movedIn dir src new) = new := by cases dir <;> rfl
@[simp] theorem replacedOf_movedIn : replacedOf dir (movedIn dir src new) = src := by cases dir <;> rfl
@[simp] theorem sourceOf_opposite : sourceOf (opposite dir) h = replacedOf dir h := by cases dir <;> rfl
@[simp] theorem replacedOf_opposite : replacedOf (opposite dir) h = sourceOf dir h := by cases dir <;> rfl
@[simp] theorem movedIn_opposite : movedIn (opposite dir) (sourceOf dir h) (replacedOf dir h) = h := by
  cases dir <;> rfl

theorem round_eq (ciph : Oracle) (p : CallParams) (i : BitVec 3) :
    p.round ciph dir i h =
      (roundF ciph p.k i dir p.tw p.r p.u p.v (sourceOf dir h) (replacedOf dir h)).map
        (movedIn dir (sourceOf dir h)) := by
  cases dir <;> rfl

theorem query_eq (p : CallParams) (i : BitVec 3) : p.query dir i h = roundQuery i p.tw p.r (sourceOf dir h) := by
  cases dir <;> rfl

end Move

/-- Adding and subtracting the answer's value cancel under the remainder (R136, R157). -/
theorem emod_foldSum_opposite (dir : Dir) (a y : Nat) {q : Nat} (hq : 0 < q) :
    emod (foldSum (opposite dir) (emod (foldSum dir a y) q) y) q = emod a q := by
  cases dir with
  | encrypt => exact emod_add_sub a y hq
  | decrypt => exact emod_sub_add a y hq

/-- A half is the rendering of its own value (R139). -/
theorem renderHalf_num_rev {r : Nat} {x : Digits} (hr : 1 ≤ r) (hx : ∀ d ∈ x, d < r) :
    renderHalf r x.length (num r (rev x)) = some x := by
  have hrev : ∀ d ∈ rev x, d < r := fun d hd => hx d (List.mem_reverse.1 hd)
  have hlen : (rev x).length = x.length := List.length_reverse
  rw [renderHalf_pos hr, ← hlen, emod_of_lt (num_lt _ hrev), fixedDigits_num _ hrev, rev, rev, List.reverse_reverse]

/-- The round function of the opposite direction, on the same source half, takes the new half back to the old one: the
query is the same, so the answer is, and only the fold differs (R159, R178). -/
theorem roundF_opposite {ciph : Oracle} {k : Bytes} {i : BitVec 3} {dir : Dir} {tw : Tweak} {r u v : Nat}
    {src old new : Digits} (hr : 1 ≤ r) (hlen : old.length = halfLength i u v) (hold : ∀ d ∈ old, d < r)
    (h : roundF ciph k i dir tw r u v src old = some new) :
    roundF ciph k i (opposite dir) tw r u v src new = some old := by
  obtain ⟨-, -, hnew⟩ := roundF_cases hr h
  rw [roundF, hnew, renderHalf_pos hr, emod_foldSum_opposite dir _ _ (Nat.pow_pos hr), ← renderHalf_pos hr, ← hlen]
  exact renderHalf_num_rev hr hold

/-- A round is undone, with the same query, by the round of the opposite direction at the same index. -/
theorem round_opposite {ciph : Oracle} {p : CallParams} {dir : Dir} {i : BitVec 3} {h h' : Halves} (hr : 1 ≤ p.r)
    (hlen : (replacedOf dir h).length = halfLength i p.u p.v) (hdigits : ∀ d ∈ replacedOf dir h, d < p.r)
    (hround : p.round ciph dir i h = some h') :
    p.round ciph (opposite dir) i h' = some h ∧ p.query (opposite dir) i h' = p.query dir i h := by
  rw [round_eq] at hround
  obtain ⟨c, hc, rfl⟩ := Option.map_eq_some_iff.1 hround
  have hback := roundF_opposite hr hlen hdigits hc
  constructor
  · rw [round_eq, sourceOf_opposite, replacedOf_opposite, replacedOf_movedIn, sourceOf_movedIn, hback, Option.map_some,
      movedIn_opposite]
  · rw [query_eq, query_eq, sourceOf_opposite, replacedOf_movedIn]

/-- Settles O39: encrypt and decrypt are opposite. -/
theorem roundsUndoEachOther : Obligations.RoundsUndoEachOther :=
  fun _ _ _ _ _ hr => ⟨round_opposite (dir := .encrypt) hr, round_opposite (dir := .decrypt) hr⟩

/-! ### The lengths of the halves between rounds -/

/-- The halves are ready for an even round of a direction, or for an odd one: the half to be replaced has the length
of the half that the round makes, the source half the other length, and the digits are digits of the radix (R151,
R177). -/
structure HalvesFit (p : CallParams) (dir : Dir) (even : Bool) (h : Halves) : Prop where
  replaced_length : (replacedOf dir h).length = if even then p.u else p.v
  source_length : (sourceOf dir h).length = if even then p.v else p.u
  replaced_digits : ∀ d ∈ replacedOf dir h, d < p.r
  source_digits : ∀ d ∈ sourceOf dir h, d < p.r

/-- A round on halves ready for it answers halves ready for a round of the other parity, and is undone by the opposite
direction. -/
theorem round_of_fit (ciph : Oracle) {p : CallParams} {dir : Dir} {i : BitVec 3} {h : Halves} (hr : 1 ≤ p.r)
    (hfit : HalvesFit p dir (evenRound i) h) :
    ∃ h', p.round ciph dir i h = some h' ∧ HalvesFit p dir (!evenRound i) h' ∧
      p.round ciph (opposite dir) i h' = some h ∧ p.query (opposite dir) i h' = p.query dir i h := by
  obtain ⟨c, hc⟩ : ∃ c, roundF ciph p.k i dir p.tw p.r p.u p.v (sourceOf dir h) (replacedOf dir h) = some c :=
    roundF_some hr
  obtain ⟨hlen, hdigits, -⟩ := roundF_cases hr hc
  have hround : p.round ciph dir i h = some (movedIn dir (sourceOf dir h) c) := by rw [round_eq, hc, Option.map_some]
  have hfit' : HalvesFit p dir (!evenRound i) (movedIn dir (sourceOf dir h) c) :=
    { replaced_length := by rw [replacedOf_movedIn, hfit.source_length]; cases evenRound i <;> rfl
      source_length := by rw [sourceOf_movedIn, hlen, halfLength]; cases evenRound i <;> rfl
      replaced_digits := by simpa using hfit.source_digits
      source_digits := by simpa using hdigits }
  exact ⟨_, hround, hfit', round_opposite hr hfit.replaced_length hfit.replaced_digits hround⟩

/-! ### A schedule is undone by the opposite schedule -/

/-- The rounds of a list are even and odd in turn, from the first parity on, and the last is the next one's turn. -/
def Alternates : Bool → List (BitVec 3) → Bool → Prop
  | first, [], last => first = last
  | first, i :: is, last => evenRound i = first ∧ Alternates (!first) is last

/-- After its eight rounds a schedule is back at the parity it began with (R174, R175). -/
theorem alternates_schedule (dir : Dir) :
    Alternates (evenRound (firstRound dir)) (schedule dir) (evenRound (firstRound dir)) := by
  cases dir <;> simp [Alternates, schedule, firstRound, evenRound]

theorem schedule_opposite (dir : Dir) : schedule (opposite dir) = (schedule dir).reverse := by cases dir <;> rfl

/-- The queries of one list of rounds and then another are those of the whole list, in order (R182). -/
theorem rounds_append {ciph : Oracle} {p : CallParams} {dir : Dir} {is js : List (BitVec 3)} {h h₁ h₂ : Halves}
    {qs₁ qs₂ : List Block} (his : p.rounds ciph dir is h = some (h₁, qs₁))
    (hjs : p.rounds ciph dir js h₁ = some (h₂, qs₂)) : p.rounds ciph dir (is ++ js) h = some (h₂, qs₁ ++ qs₂) := by
  induction is generalizing h qs₁ with
  | nil =>
    cases his
    exact hjs
  | cons i is ih =>
    rw [CallParams.rounds] at his
    rw [List.cons_append, CallParams.rounds]
    cases hround : p.round ciph dir i h with
    | none => simp [hround] at his
    | some h' =>
      simp only [hround, Option.map_eq_some_iff, Prod.mk.injEq] at his
      obtain ⟨⟨_, qs⟩, his, rfl, rfl⟩ := his
      simp [ih his]

theorem rounds_singleton {ciph : Oracle} {p : CallParams} {dir : Dir} {i : BitVec 3} {h h' : Halves}
    (hround : p.round ciph dir i h = some h') : p.rounds ciph dir [i] h = some (h', [p.query dir i h]) := by
  simp [CallParams.rounds, hround]

theorem rounds_cons {ciph : Oracle} {p : CallParams} {dir : Dir} {i : BitVec 3} {is : List (BitVec 3)}
    {h h' h'' : Halves} {qs : List Block} (hround : p.round ciph dir i h = some h')
    (hrounds : p.rounds ciph dir is h' = some (h'', qs)) :
    p.rounds ciph dir (i :: is) h = some (h'', p.query dir i h :: qs) :=
  rounds_append (rounds_singleton hround) hrounds

/-- Alternating rounds on fitting halves answer fitting halves, and the opposite direction runs them backwards to where
they began, with the same queries in the opposite order (R178, R182). -/
theorem rounds_of_fit (ciph : Oracle) {p : CallParams} {dir : Dir} {first last : Bool} {is : List (BitVec 3)}
    {h : Halves} (hr : 1 ≤ p.r) (halt : Alternates first is last) (hfit : HalvesFit p dir first h) :
    ∃ h' qs, qs.length = is.length ∧ HalvesFit p dir last h' ∧ p.rounds ciph dir is h = some (h', qs) ∧
      p.rounds ciph (opposite dir) is.reverse h' = some (h, qs.reverse) := by
  induction is generalizing first h with
  | nil =>
    cases halt
    exact ⟨h, [], rfl, hfit, rfl, rfl⟩
  | cons i is ih =>
    obtain ⟨rfl, halt⟩ := halt
    obtain ⟨h₁, hround, hfit₁, hback, hquery⟩ := round_of_fit ciph hr hfit
    obtain ⟨h', qs, hlen, hfit', hrounds, hrev⟩ := ih halt hfit₁
    refine ⟨h', p.query dir i h :: qs, by simp [hlen], hfit', rounds_cons hround hrounds, ?_⟩
    rw [List.reverse_cons, List.reverse_cons, ← hquery]
    exact rounds_append hrev (rounds_singleton hback)

/-! ### A transform is undone by the opposite direction -/

/-- Before the first round of either schedule, and after its last, A has the U digits of an even round's half and B the
V digits of an odd one's (R170, R177). -/
theorem halvesFit_firstRound_iff {p : CallParams} {dir : Dir} {h : Halves} :
    HalvesFit p dir (evenRound (firstRound dir)) h ↔
      (h.a.length = p.u ∧ h.b.length = p.v) ∧ (∀ d ∈ h.a, d < p.r) ∧ ∀ d ∈ h.b, d < p.r := by
  cases dir with
  | encrypt => exact ⟨fun ⟨ha, hb, hda, hdb⟩ => ⟨⟨ha, hb⟩, hda, hdb⟩, fun ⟨⟨ha, hb⟩, hda, hdb⟩ => ⟨ha, hb, hda, hdb⟩⟩
  | decrypt => exact ⟨fun ⟨hb, ha, hdb, hda⟩ => ⟨⟨ha, hb⟩, hda, hdb⟩, fun ⟨⟨ha, hb⟩, hda, hdb⟩ => ⟨hb, ha, hdb, hda⟩⟩

/-- The halves of a split have the lengths U and V of its call (R170). -/
theorem splitHalves_length (ctx : Context) (tw : Tweak) (x : Digits) :
    (splitHalves x).a.length = (callParams ctx tw x.length).u ∧
      (splitHalves x).b.length = (callParams ctx tw x.length).v := by
  refine ⟨?_, List.length_drop⟩
  simp only [splitHalves, callParams, halfUp, List.length_take]
  omega

/-- Halves of the lengths U and V of a call of `n` digits make an output of `n` digits, whose split they are (R170,
R176). -/
theorem splitHalves_append {ctx : Context} {tw : Tweak} {n : Nat} {h : Halves}
    (ha : h.a.length = (callParams ctx tw n).u) (hb : h.b.length = (callParams ctx tw n).v) :
    (h.a ++ h.b).length = n ∧ splitHalves (h.a ++ h.b) = h := by
  simp only [callParams] at ha hb
  have hn : (h.a ++ h.b).length = n := by
    rw [List.length_append, ha, hb]
    unfold halfUp
    omega
  refine ⟨hn, ?_⟩
  rw [splitHalves, hn, ← ha, List.take_left, List.drop_left]

/-- A transform of digits of the radix answers a string of the same kind and length, and the opposite direction takes
that back, with the same eight queries in the opposite order (R178, R179, R182). -/
theorem transform_opposite (ciph : Oracle) {ctx : Context} (dir : Dir) (tw : Tweak) {x : Digits}
    (hr : 1 ≤ ctx.radix.toNat) (hx : ∀ d ∈ x, d < ctx.radix.toNat) :
    ∃ y qs, qs.length = 8 ∧ y.length = x.length ∧ (∀ d ∈ y, d < ctx.radix.toNat) ∧
      transform ciph ctx dir tw x = some (y, qs) ∧ transform ciph ctx (opposite dir) tw y = some (x, qs.reverse) := by
  have hfit : HalvesFit (callParams ctx tw x.length) dir (evenRound (firstRound dir)) (splitHalves x) :=
    halvesFit_firstRound_iff.2 ⟨splitHalves_length ctx tw x, fun d hd => hx d (List.mem_of_mem_take hd),
      fun d hd => hx d (List.mem_of_mem_drop hd)⟩
  obtain ⟨h, qs, hlen, hfit', hrounds, hback⟩ := rounds_of_fit ciph hr (alternates_schedule dir) hfit
  obtain ⟨⟨ha, hb⟩, hda, hdb⟩ := halvesFit_firstRound_iff.1 hfit'
  obtain ⟨hylen, hsplit⟩ := splitHalves_append ha hb
  refine ⟨h.a ++ h.b, qs, by rw [hlen, schedule_length], hylen, ?_, by rw [transform, hrounds]; rfl, ?_⟩
  · exact fun d hd => (List.mem_append.1 hd).elim (hda d) (hdb d)
  · rw [transform, hylen, hsplit, schedule_opposite, hback]
    simp [splitHalves]

/-- Settles O47: encrypt and decrypt are opposite. -/
theorem encryptAndDecryptAreInverse : Obligations.EncryptAndDecryptAreInverse := by
  intro ciph ctx tw x hctx _ _ hx
  obtain ⟨y, qs, hlen, -, -, henc, hdec⟩ := transform_opposite ciph .encrypt tw (legal_radix_pos hctx) hx
  obtain ⟨z, ps, hlen', -, -, hdec', henc'⟩ := transform_opposite ciph .decrypt tw (legal_radix_pos hctx) hx
  exact ⟨⟨y, qs, hlen, henc, hdec⟩, z, ps, hlen', hdec', henc'⟩

/-- Settles O48: the one string that a direction takes to `y` is what the opposite direction makes of `y`. -/
theorem transformPermutesEachLength : Obligations.TransformPermutesEachLength := by
  intro ciph ctx dir tw n hctx _ _
  have hr := legal_radix_pos hctx
  refine ⟨fun x hn hx => ?_, fun y hn hy => ?_⟩
  · obtain ⟨y, qs, -, hlen, hy, htransform, -⟩ := transform_opposite ciph dir tw hr hx
    exact ⟨y, qs, htransform, hlen.trans hn, hy⟩
  · obtain ⟨x, qs, -, hlen, hx, hback, htransform⟩ := transform_opposite ciph (opposite dir) tw hr hy
    rw [opposite_opposite] at htransform
    refine ⟨x, ⟨⟨hlen.trans hn, hx⟩, qs.reverse, htransform⟩, ?_⟩
    rintro x' ⟨⟨-, hx'⟩, qs', htransform'⟩
    obtain ⟨y', ps, -, -, -, hforth, hback'⟩ := transform_opposite ciph dir tw hr hx'
    cases htransform'.symm.trans hforth
    cases hback.symm.trans hback'
    rfl

end Sys2Proof.Proofs

/-! PROOFS. The host commands (45_host_commands.md): the host's turn, the error that a failing INIT or transform
answers, and the per-call tweak. -/

namespace Sys2Proof.Proofs

open Sys2Proof.Machine Sys2Proof.Laws

/-! ### The host's turn -/

/-- A step in which the host asserts no reset is the engine's turn from the state that the host's action leaves. -/
theorem step_of_landed {s t : State} (hr : s.host.head? ≠ some .reset) (hl : s.landed = t) : step s = engineTurn t := by
  have hr' : s.resetNow = false := by simpa [State.resetNow] using hr
  rw [step_of_not_resetNow hr', hl]

/-- Settles O7: no action, a quiet one and an offered frame, each with the state in which it lands. -/
theorem oneHostActionLandsPerStep : Obligations.OneHostActionLandsPerStep := by
  refine ⟨fun s h => ?_, fun s rest h => ?_, fun s f rest h => ?_⟩ <;>
    exact step_of_landed (by simp [h]) (by simp [State.landed, State.offer, h])

/-- Settles O10: an idle machine with no frame to fetch stays as the host's turn left it. -/
theorem idleStepDoesNothing : Obligations.IdleStepDoesNothing :=
  fun _ => step_of_nothing_waiting

/-! ### A failing INIT -/

section InitChecks

variable {radix : Nat} {key tweak : Bytes}

theorem keyVariant_of_length {n : Nat} (h : n = 16 ∨ n = 24 ∨ n = 32) : ∃ v, keyVariant n = .ok v := by
  rcases h with rfl | rfl | rfl <;> exact ⟨_, rfl⟩

theorem initChecks_of_keyLength (h16 : key.length ≠ 16) (h24 : key.length ≠ 24) (h32 : key.length ≠ 32) :
    initChecks radix key tweak = .error .invalidKeyLength := by
  simp [initChecks, keyVariant, h16, h24, h32, bind, Except.bind]

theorem initChecks_of_radix (hk : key.length = 16 ∨ key.length = 24 ∨ key.length = 32) (hr : radix < 2 ∨ 36 < radix) :
    initChecks radix key tweak = .error .invalidRadix := by
  obtain ⟨v, hv⟩ := keyVariant_of_length hk
  have hcheck : checkRadix radix = .error .invalidRadix := if_pos hr
  simp [initChecks, hv, hcheck, bind, Except.bind]

theorem initChecks_of_tweakLength (hk : key.length = 16 ∨ key.length = 24 ∨ key.length = 32) (hmin : 2 ≤ radix)
    (hmax : radix ≤ 36) (h7 : tweak.length ≠ 7) (h8 : tweak.length ≠ 8) :
    initChecks radix key tweak = .error .invalidTweakLength := by
  obtain ⟨v, hv⟩ := keyVariant_of_length hk
  have hcheck : checkRadix radix = .ok () := if_neg (not_or.2 ⟨hmin.not_gt, hmax.not_gt⟩)
  simp [initChecks, hv, hcheck, lengthBounds_legal hmin hmax, expand_of_length_ne h7 h8, bind, Except.bind]

end InitChecks

/-- INIT whose checks fail raises their error: VALID and BUSY are 0, and of the rest only CTX changes (R190, R225). -/
theorem init_fails {radix : Byte} {key tweak : Bytes} {e : ErrorKind}
    (h : initChecks radix.toNat key tweak = .error e) (s : State) :
    ∃ t, exec (.init radix key tweak) s = .next t ∧ t.sent = s.sent ++ [.response [e.code]] ∧
      t.valid = false ∧ t.busy = false ∧ t.call = s.call ∧ t.waiting = s.waiting ∧ t.host = s.host := by
  refine ⟨s.raise .init e, ?_, raise_sent _ _ _, rfl, rfl, rfl, rfl, rfl⟩
  simp only [exec, execInit, initCommand, h]

/-- Settles O41: the first failing check is that of the key length, of the radix or of the tweak length (R222). -/
theorem initFailsByItsFirstFailingCheck : Obligations.InitFailsByItsFirstFailingCheck := by
  intro s radix key tweak status h
  rcases h with ⟨h16, h24, h32, rfl⟩ | ⟨hk, ⟨hr, rfl⟩ | ⟨hmin, hmax, h7, h8, rfl⟩⟩
  · exact init_fails (initChecks_of_keyLength h16 h24 h32) s
  · exact init_fails (initChecks_of_radix hk hr) s
  · exact init_fails (initChecks_of_tweakLength hk hmin hmax h7 h8) s

/-! ### A failing transform -/

section TransformChecks

variable {ctx : Context} {sym : Bytes} {tweak : Option Bytes} {tw : Tweak}

/-- The tweak in force exists where the override, if there is one, has one of the two lengths (R120, R195). -/
theorem tweakInForce_of_length (h : ∀ t, tweak = some t → t.length = 7 ∨ t.length = 8) :
    ∃ tw, tweakInForce ctx tweak = .ok tw := by
  cases tweak with
  | none => exact ⟨ctx.t, rfl⟩
  | some t =>
    rcases expand_cases t with ⟨T, hT, -⟩ | ⟨-, h7, h8⟩
    · exact ⟨T, hT⟩
    · exact absurd (h t rfl) (not_or.2 ⟨h7, h8⟩)

theorem transformChecks_of_unconfigured : transformChecks false ctx sym tweak = .error .notConfigured := rfl

theorem transformChecks_of_tweakLength {t : Bytes} (h7 : t.length ≠ 7) (h8 : t.length ≠ 8) :
    transformChecks true ctx sym (some t) = .error .invalidTweakLength := by
  simp [transformChecks, tweakInForce, expand_of_length_ne h7 h8, bind, Except.bind]

theorem transformChecks_of_messageLength (ht : tweakInForce ctx tweak = .ok tw)
    (hn : sym.length < ctx.minLen.toNat ∨ ctx.maxLen.toNat < sym.length) :
    transformChecks true ctx sym tweak = .error .invalidMessageLength := by
  have hcheck : checkMessageLength sym.length ctx.minLen.toNat ctx.maxLen.toNat = .error .invalidMessageLength :=
    if_pos hn
  simp [transformChecks, ht, hcheck, bind, Except.bind]

theorem transformChecks_of_digit (ht : tweakInForce ctx tweak = .ok tw) (hmin : ctx.minLen.toNat ≤ sym.length)
    (hmax : sym.length ≤ ctx.maxLen.toNat) (hd : ∃ b ∈ sym, ∀ d, symbolDigit b = some d → ctx.radix.toNat ≤ d) :
    transformChecks true ctx sym tweak = .error .invalidDigitForRadix := by
  have hcheck : checkMessageLength sym.length ctx.minLen.toNat ctx.maxLen.toNat = .ok () :=
    if_neg (not_or.2 ⟨hmin.not_gt, hmax.not_gt⟩)
  simp [transformChecks, ht, hcheck, checkDigits_eq_error_iff.2 hd, bind, Except.bind]

end TransformChecks

/-- A transform whose checks fail raises their error: BUSY is 0, and of the rest only the call registers change (R195,
R225). -/
theorem transform_fails {i : Instr} {dir : Dir} {sym : Bytes} {tweak : Option Bytes} {s : State} {e : ErrorKind}
    (hreq : transformRequest i = some (dir, sym, tweak)) (h : transformChecks s.valid s.ctx sym tweak = .error e) :
    ∃ t, exec i s = .next t ∧ t.sent = s.sent ++ [.response [e.code]] ∧ t.valid = s.valid ∧ t.ctx = s.ctx ∧
      t.busy = false ∧ t.waiting = s.waiting ∧ t.host = s.host := by
  refine ⟨s.raise .transform e, ?_, raise_sent _ _ _, rfl, rfl, rfl, rfl, rfl⟩
  rw [exec_request hreq, startTransform, h]

/-- Settles O45: the first failing check is that of VALID, of the override's length, of the message length or of the
digits (R223). -/
theorem transformFailsByItsFirstFailingCheck : Obligations.TransformFailsByItsFirstFailingCheck := by
  intro s i dir sym tweak status hreq h
  rcases h with ⟨hv, rfl⟩ | ⟨hv, ⟨⟨t, rfl, h7, h8⟩, rfl⟩ | ⟨htweak, hmessage⟩⟩
  · exact transform_fails hreq (hv ▸ transformChecks_of_unconfigured)
  · exact transform_fails hreq (hv ▸ transformChecks_of_tweakLength h7 h8)
  · obtain ⟨tw, htw⟩ := tweakInForce_of_length (ctx := s.ctx) htweak
    rcases hmessage with ⟨hn, rfl⟩ | ⟨hmin, hmax, hd, rfl⟩
    · exact transform_fails hreq (hv ▸ transformChecks_of_messageLength htw hn)
    · exact transform_fails hreq (hv ▸ transformChecks_of_digit htw hmin hmax hd)

/-! ### The per-call tweak -/

/-- XFORM sees an override only through the tweak in force (R195). -/
theorem startTransform_congr_tweak {s : State} {tweak tweak' : Option Bytes}
    (h : tweakInForce s.ctx tweak = tweakInForce s.ctx tweak') (dir : Dir) (sym : Bytes) :
    startTransform dir sym tweak s = startTransform dir sym tweak' s := by
  simp only [startTransform, transformChecks, h]

/-- Settles O46: the tweak in force is the context's, with the override and without one. -/
theorem contextTweakAsOverrideIsNoChange : Obligations.ContextTweakAsOverrideIsNoChange := by
  intro s sym tweak _ ht
  have hforce : tweakInForce s.ctx (some tweak) = tweakInForce s.ctx none := ht
  have same (dir : Dir) := startTransform_congr_tweak hforce dir sym
  exact ⟨congrArg Host.Outcome.next (same .encrypt), congrArg Host.Outcome.next (same .decrypt)⟩

end Sys2Proof.Proofs

/-! PROOFS. The exceptions (60_exceptions.md): the error that INIT cannot answer. -/

namespace Sys2Proof.Proofs

open Sys2Proof.Machine Sys2Proof.Laws

/-- The status of InvalidDomainBounds is that of no other error (R84). -/
theorem eq_invalidDomainBounds_of_code {e : ErrorKind} (h : e.code = ErrorKind.invalidDomainBounds.code) :
    e = .invalidDomainBounds := by
  revert h
  cases e <;> decide

/-- The radix is checked before its bounds, and the bounds of a radix that passes are never an error (R222, R236). -/
theorem initChecks_canOccur {radix : Nat} {key tweak : Bytes} {e : ErrorKind}
    (h : initChecks radix key tweak = .error e) : CanOccur e := by
  rcases initChecks_cases radix key tweak with ⟨_, _, -, -, -, -, -, hok⟩ | ⟨-, -, -, herr⟩ | ⟨-, -, herr⟩ |
    ⟨-, -, -, -, -, herr⟩
  · cases h.symm.trans hok
  all_goals
    cases h.symm.trans herr
    exact ⟨nofun, nofun⟩

/-- Settles O20: INIT answers the status of an error that can occur, or `RI`, which is longer than a status. -/
theorem initNeverRaisesDomainBounds : Obligations.InitNeverRaisesDomainBounds := by
  refine ⟨fun radix key tweak h => (initChecks_canOccur h).1 rfl, fun s radix key tweak => ?_⟩
  refine ⟨initCommand radix key tweak s, rfl, fun hsent => ?_⟩
  rcases initCommand_response radix key tweak s with ⟨e, he, h⟩ | ⟨-, h⟩
  · have hresponse : responseRS e = [ErrorKind.invalidDomainBounds.code] := by
      simpa [h, responseRS] using hsent
    exact he.1 (eq_invalidDomainBounds_of_code (List.singleton_inj.1 hresponse))
  · have hresponse := h.symm.trans hsent
    simp [responseRI] at hresponse

end Sys2Proof.Proofs

/-! PROOFS. Reset and hazards (70_reset_and_hazards.md): the state after reset, a step in which reset is asserted, and
the machine that a failed INIT leaves unconfigured. -/

namespace Sys2Proof.Proofs

open Sys2Proof.Machine Sys2Proof.Laws

/-! ### The state after reset -/

/-- Settles O12: the two values are those that R250's table gives. -/
theorem resetStateIsUnconfigured : Obligations.ResetStateIsUnconfigured := ⟨rfl, rfl⟩

/-- Settles O54: with no call in progress and VALID = 0 the invariant asks nothing of any register. -/
theorem resetStateIsWellKept : Obligations.ResetStateIsWellKept := inv_of_idle rfl nofun

/-! ### A step in which reset is asserted -/

/-- The action leaves the host's list and the engine takes no turn of its own, whatever it was doing (R251). -/
theorem step_of_reset {s : State} {rest : List HostAction} (h : s.host = .reset :: rest) :
    step s = .next { s with host := rest }.assertReset := by
  have hreset : s.resetNow = true := by simp [State.resetNow, h]
  have hlanded : s.landed = { s with host := rest } := by simp [State.landed, h]
  rw [step_of_resetNow hreset, hlanded]

/-- Settles O13: reset writes both flags and no event. -/
theorem resetAbandonsTheCommand : Obligations.ResetAbandonsTheCommand :=
  fun _ _ h => ⟨_, step_of_reset h, rfl, rfl, rfl, rfl⟩

/-- Settles O14: VALID and BUSY are 0 in both states, so that no other register is read, and the ports are equal. -/
theorem resetStateIsTheResetView : Obligations.ResetStateIsTheResetView := by
  intro s t rest hhost h
  rw [step_of_reset hhost] at h
  cases h
  exact sameView_of_idle ⟨rfl, rfl, rfl, rfl, nofun⟩ rfl rfl

/-! ### After a failed INIT -/

/-- INIT that answers a status alone has raised an error, for `RI` is longer; the old context is gone (R225, R264). -/
theorem invalid_of_initCommand_status {radix : Byte} {key tweak : Bytes} {s : State} {status : Byte}
    (h : (initCommand radix key tweak s).sent = s.sent ++ [.response [status]]) :
    (initCommand radix key tweak s).valid = false := by
  rcases initCommand_response radix key tweak s with ⟨e, -, hraise⟩ | ⟨-, hok⟩
  · rw [hraise]
    rfl
  · have hresponse := hok.symm.trans h
    simp [responseRI] at hresponse

/-- A transform checks VALID before anything else (R110, R252). -/
theorem transform_of_unconfigured {i : Instr} {req : Dir × Bytes × Option Bytes} {s : State}
    (hreq : transformRequest i = some req) (hv : s.valid = false) :
    ∃ t, exec i s = .next t ∧ t.sent = s.sent ++ [.response [ErrorKind.notConfigured.code]] ∧ t.valid = false := by
  obtain ⟨t, hexec, hsent, hvalid, -⟩ := transform_fails hreq (hv ▸ transformChecks_of_unconfigured)
  exact ⟨t, hexec, hsent, hvalid.trans hv⟩

/-- Settles O42: the INIT has left VALID = 0, which is the first thing that each transform checks. -/
theorem failedInitUnconfigures : Obligations.FailedInitUnconfigures := by
  intro s t radix key tweak e i req hinit hsent hreq
  cases hinit
  exact transform_of_unconfigured hreq (invalid_of_initCommand_status hsent)

end Sys2Proof.Proofs
